-- ==== Sys2Proof/Word.lean ====
section
/-! DEFINITION. The machine's one data type: the signed 64-bit value of a cell, and the narrowing of an exact integer to it.

Spec: 00_scope.md R7, R8, R9; 20_memory.md R51, R58. -/

namespace Sys2Proof

/-- `Int64` of R7: a signed 64-bit value. Every memory cell, RB, every operand, every input and every output is one.
The two's complement bits are the carrier (R7's bit picture); the value the rules speak of is `BitVec.toInt`, which ranges
over exactly -2^63 .. 2^63 - 1. No rule slices bits (R7), and none is done here. -/
abbrev Word := BitVec 64

/-- `wrap64` (R8): the unique `Word` congruent to `z` modulo 2^64. -/
def wrap64 (z : Int) : Word := BitVec.ofInt 64 z

/-- `digit(w, k)` (R9): the decimal digit of `w` at the place 10^k. -/
def digit (w k : Nat) : Nat := w / 10 ^ k % 10

end Sys2Proof
end

