-- ==== Sys2Proof/Config.lean ====
section
/-! DEFINITION. What an implementation fixes: the parameters of the spec (00_scope.md R6, 93_implementation_defined.md U1, U4).

The machine has no undefined value (60_exceptions.md R250), so there is no free value here. -/

namespace Sys2Proof

/-- The largest ADDR_MAX the spec allows, and its default: 2^63 - 1 (R6, R52; decision D4). The value a machine
really has is the field `addrMax` of its state, fixed at construction, log entry 2. -/
def Config.defaultAddrMax : Nat := 2 ^ 63 - 1

/-- The configuration function `norm` of U1, applied to the exact result of ADD, MUL and ARB, at its default `wrap64`
(R156, R157; decision D2). DESIGN CHOICE of the spec, log entry 3: unsafe against an implementation that saturates or traps. -/
def Config.norm (exact : Int) : Word := wrap64 exact

end Sys2Proof
end

