-- ==== Sys2Proof/Syntax.lean ====
section
/-! DEFINITION. The instructions: one constructor per row of spec/opcode_table.json, and the addressing modes.

Spec: 30_encoding.md R81, R86, R87, R91. The set is closed (00_scope.md R3). -/

namespace Sys2Proof

/-- The addressing modes (R87, R143). -/
inductive Mode where
  /-- Digit 0: the parameter cell holds the address of the operand. -/
  | position
  /-- Digit 1: the parameter cell holds the operand itself; reads only. -/
  | immediate
  /-- Digit 2: the operand's address is RB plus the parameter cell. -/
  | relative
deriving DecidableEq, Repr

/-- An instruction as the decoder hands it on: the operation and the mode of each parameter, slot 1 first (R86). The
parameter cells follow the instruction word in memory and are read by the meaning, in slot order (R116, R121), log entry 4. -/
inductive Instr where
  /-- Opcode 1, ADD (R151). -/
  | add (a b dst : Mode)
  /-- Opcode 2, MUL (R152). -/
  | mul (a b dst : Mode)
  /-- Opcode 3, IN (R180, R181). -/
  | inp (dst : Mode)
  /-- Opcode 4, OUT (R182). -/
  | out (a : Mode)
  /-- Opcode 5, JT (R190). -/
  | jt (a target : Mode)
  /-- Opcode 6, JF (R191). -/
  | jf (a target : Mode)
  /-- Opcode 7, LT (R153). -/
  | lt (a b dst : Mode)
  /-- Opcode 8, EQ (R154). -/
  | eq (a b dst : Mode)
  /-- Opcode 9, ARB (R155). -/
  | arb (a : Mode)
  /-- Opcode 99, HLT (R193). -/
  | hlt
deriving DecidableEq, Repr

/-- The modes of the parameters, slot 1 first (R86). -/
def Instr.modes : Instr → List Mode
  | .add a b dst => [a, b, dst]
  | .mul a b dst => [a, b, dst]
  | .inp dst => [dst]
  | .out a => [a]
  | .jt a target => [a, target]
  | .jf a target => [a, target]
  | .lt a b dst => [a, b, dst]
  | .eq a b dst => [a, b, dst]
  | .arb a => [a]
  | .hlt => []

/-- The write slot, or none (R86, R88). -/
def Instr.writeSlot : Instr → Option Nat
  | .add _ _ _ => some 3
  | .mul _ _ _ => some 3
  | .inp _ => some 1
  | .out _ => none
  | .jt _ _ => none
  | .jf _ _ => none
  | .lt _ _ _ => some 3
  | .eq _ _ _ => some 3
  | .arb _ => none
  | .hlt => none

/-- The length L in cells: the instruction word and its parameters (R85). -/
def Instr.length (i : Instr) : Nat := 1 + i.modes.length

end Sys2Proof
end

