-- ==== Sys2Proof/WellFormed.lean ====
section
/-! DEFINITION. Which instructions are well formed: the write operand is not immediate.

Spec: 30_encoding.md R87, R88; 41_addressing_resolver.md R137. -/

namespace Sys2Proof

/-- A write operand accepts modes 0 and 2 only (R87). -/
def Mode.writable : Mode → Bool
  | .position => true
  | .immediate => false
  | .relative => true

/-- The mode of the write slot is writable (R87, R88); read slots accept every mode. -/
def Instr.wf : Instr → Bool
  | .add _ _ dst => dst.writable
  | .mul _ _ dst => dst.writable
  | .inp dst => dst.writable
  | .out _ => true
  | .jt _ _ => true
  | .jf _ _ => true
  | .lt _ _ dst => dst.writable
  | .eq _ _ dst => dst.writable
  | .arb _ => true
  | .hlt => true

end Sys2Proof
end

