-- ==== Sys2Proof/Decode.lean ====
section
/-! DEFINITION. The decoder, total on every word and rejecting by name, and the encoder.

Spec: 30_encoding.md R81 to R94, R98. The fields are decimal digits of the word's integer value, not bit fields. -/

namespace Sys2Proof

/-- Why a word is no instruction: the three faults the decoder raises (R98). -/
inductive Rejection where
  /-- A negative word, or an opcode outside the table (R82, R92). -/
  | unknownOpcode
  /-- The mode digit of a slot the opcode has is 3 to 9 (R87). -/
  | invalidAddressingMode
  /-- The mode digit of the write slot is 1 (R87, R88). -/
  | invalidWriteTarget
deriving DecidableEq, Repr

/-- The mode digit of a read operand (R87). -/
def readMode (d : Nat) : Except Rejection Mode :=
  match d with
  | 0 => .ok .position
  | 1 => .ok .immediate
  | 2 => .ok .relative
  | _ => .error .invalidAddressingMode

/-- The mode digit of a write operand (R87, R88). -/
def writeMode (d : Nat) : Except Rejection Mode :=
  match d with
  | 0 => .ok .position
  | 1 => .error .invalidWriteTarget
  | 2 => .ok .relative
  | _ => .error .invalidAddressingMode

/-- Opcodes 1, 2, 7, 8: two reads and a write, the slots checked in the order 1, 2, 3 (R98, R113). -/
def decodeReadReadWrite (w : Nat) (mk : Mode → Mode → Mode → Instr) : Except Rejection Instr := do
  let a ← readMode (digit w 2)
  let b ← readMode (digit w 3)
  let dst ← writeMode (digit w 4)
  return mk a b dst

/-- Opcodes 5 and 6: two reads (R98). -/
def decodeReadRead (w : Nat) (mk : Mode → Mode → Instr) : Except Rejection Instr := do
  let a ← readMode (digit w 2)
  let target ← readMode (digit w 3)
  return mk a target

/-- Opcodes 4 and 9: one read (R98). -/
def decodeRead (w : Nat) (mk : Mode → Instr) : Except Rejection Instr := do
  let a ← readMode (digit w 2)
  return mk a

/-- Opcode 3: one write (R98). -/
def decodeWrite (w : Nat) (mk : Mode → Instr) : Except Rejection Instr := do
  let dst ← writeMode (digit w 2)
  return mk dst

/-- The decoder on a non-negative word: the two lowest decimal digits select the row of R91, and only the mode digits of
slots that the opcode has are examined (R84, R89; decisions D6, D7, log entry 13). -/
def decodeNat (w : Nat) : Except Rejection Instr :=
  match w % 100 with
  | 1 => decodeReadReadWrite w .add
  | 2 => decodeReadReadWrite w .mul
  | 3 => decodeWrite w .inp
  | 4 => decodeRead w .out
  | 5 => decodeReadRead w .jt
  | 6 => decodeReadRead w .jf
  | 7 => decodeReadReadWrite w .lt
  | 8 => decodeReadReadWrite w .eq
  | 9 => decodeRead w .arb
  | 99 => .ok .hlt
  | _ => .error .unknownOpcode

/-- `Decode(w)` (R98): a negative word is rejected before any digit is taken (R82; decision D5). -/
def decode (w : Word) : Except Rejection Instr :=
  if w.toInt < 0 then .error .unknownOpcode else decodeNat w.toNat

/-! ## The encoder -/

/-- The opcode of R91's map. -/
def Instr.opcode : Instr → Nat
  | .add _ _ _ => 1
  | .mul _ _ _ => 2
  | .inp _ => 3
  | .out _ => 4
  | .jt _ _ => 5
  | .jf _ _ => 6
  | .lt _ _ _ => 7
  | .eq _ _ _ => 8
  | .arb _ => 9
  | .hlt => 99

/-- The mode digit that stands for a mode (R87). -/
def Mode.digit : Mode → Nat
  | .position => 0
  | .immediate => 1
  | .relative => 2

/-- The mode digit of slot `k`, 0 for a slot the opcode lacks (R94). -/
def Instr.modeDigit (i : Instr) (k : Nat) : Nat :=
  match i.modes[k - 1]? with
  | some m => m.digit
  | none => 0

/-- The canonical encoder as a number: OP + 100 M1 + 1000 M2 + 10000 M3 (R94). -/
def encodeNat (i : Instr) : Nat :=
  i.opcode + 100 * i.modeDigit 1 + 1000 * i.modeDigit 2 + 10000 * i.modeDigit 3

/-- The canonical instruction word (R94). -/
def encode (i : Instr) : Word := BitVec.ofNat 64 (encodeNat i)

/-- The cells of an instruction: its word, then its parameters in order (R80, R96). -/
def assemble (i : Instr) (params : List Word) : List Word := encode i :: params

/-! ## The opcode table's numbering

The table numbers the bits of an instruction from the least significant bit of its first word. The word of this machine is
the 64-bit cell, so bits 63..0 are the instruction word and each later cell is the next 64 bits (log entry 11). -/

/-- Cell `k` of the instruction whose bits are `w`, every bit above `nbits` zero. -/
def tableCell (nbits w k : Nat) : Word := BitVec.ofNat 64 (w % 2 ^ nbits / 2 ^ (64 * k))

/-- The instruction the decoder reads from the bits `w`. -/
def decodeTableWord (nbits w : Nat) : Option Instr :=
  match decode (tableCell nbits w 0) with
  | .ok i => some i
  | .error _ => none

end Sys2Proof
end

