-- ==== Sys2Proof/Machine/State.lean ====
section
/-! DEFINITION. The state of the machine as plain data, the reasons a step can stop, and the state right after reset.

Spec: 10_state.md R20 to R39; 60_exceptions.md R230; 45_run_interface.md R205 to R212. -/

namespace Sys2Proof.Machine

/-- ST, the status register (R25). -/
inductive Status where
  | running
  | awaitingInput
  | halted
  | faulted
deriving DecidableEq, Repr

/-- The code of R25 (decision D14): the 2-bit picture of ST on the status port (R200). -/
def Status.code : Status → Nat
  | .running => 0
  | .awaitingInput => 1
  | .halted => 2
  | .faulted => 3

/-- The five fault kinds (R230). -/
inductive FaultKind where
  | invalidAddressingMode
  | invalidWriteTarget
  | unknownOpcode
  | negativeMemoryIndex
  | addressLimit
deriving DecidableEq, Repr

/-- The code of R230 (decision D14): the 3-bit picture of FK on the status port (R200). -/
def FaultKind.code : FaultKind → Nat
  | .invalidAddressingMode => 1
  | .invalidWriteTarget => 2
  | .unknownOpcode => 3
  | .negativeMemoryIndex => 4
  | .addressLimit => 5

/-- A transaction of the host (R205). -/
inductive HostCall where
  /-- `reset(p)`: construct a machine from a program (R270). -/
  | reset (program : List Word)
  /-- `poke(a, v)`: write one memory cell (R206). -/
  | poke (a : Int) (v : Word)
  /-- `run(inputs)` (R207 to R212). -/
  | run (inputs : List Word)
deriving DecidableEq, Repr

/-- What the host is answered: a result of run (R210) or a host error (R206, R211, R212, R252). A reset and a poke that is
carried out answer nothing (R218). -/
inductive HostReply where
  | progress (outputs : List Word)
  | halted (outputs : List Word)
  | faulted (kind : FaultKind) (outputs : List Word)
  | runAfterHalt
  | runAfterFault
  | badPokeIndex
deriving DecidableEq, Repr

/-- M, the memory (R32): the listed cells, by strictly rising index, none of them holding the value of an unlisted cell.
The unit is the whole 64-bit cell (R51); there are no bytes (R58), log entry 1. -/
abbrev Memory := List (Nat × Word)

/-- The state: the tuple of R20, and three fields of the model's own. -/
structure State where
  /-- ADDR_MAX (R6): fixed at construction, written by no step; the model's own field, log entry 2. -/
  addrMax : Nat
  /-- IP, the instruction pointer (R21). -/
  ip : Nat
  /-- RB, the relative base (R23). -/
  rb : Word
  /-- ST, the status register (R25). -/
  st : Status
  /-- FK, the fault-kind register; `none` is the spec's `None` (R27). -/
  fk : Option FaultKind
  /-- BUSY (R28). -/
  busy : Bool
  /-- M, the memory (R32). -/
  mem : Memory
  /-- INQ, the input queue, head first (R33). -/
  inq : List Word
  /-- OUTQ, the output sequence, oldest first (R34). -/
  outq : List Word
  /-- The transactions the host will issue, next first; the model's own field, log entry 6. -/
  pending : List HostCall
  /-- What the host was answered, oldest first; the model's own field, log entry 6. -/
  replies : List HostReply
deriving DecidableEq, Repr

/-- HALTED, the halted flag on the status port: ST = Halted (R26, R204). -/
def State.halted (s : State) : Bool := s.st == .halted

/-- FK's code on the status port, 0 for `None` (R27, R230). -/
def State.fkCode (s : State) : Nat :=
  match s.fk with
  | none => 0
  | some k => k.code

/-- Why the machine itself stops. The five faults of the spec are NOT here: their entry is described (R238), so taking one is
a next state with ST = Faulted, log entry 5. -/
inductive Fault where
  /-- Raised by `step` when BUSY = 1 and IP is above ADDR_MAX, where the spec defines no fetch (R10, R112). Safe: no
  reachable state is such a state (R38), log entry 8. -/
  | fetchOutOfRange
deriving DecidableEq, Repr

/-- Why the machine has no next state. -/
inductive Refusal where
  /-- Raised by an arm of `exec` whose instruction has no meaning yet. Safe. No arm raises it. -/
  | notModelled (mnemonic : String)
  /-- Raised by the host's reset with a program longer than ADDR_MAX + 1 cells, which the spec rules out (R63, R270). Safe,
  log entry 9. -/
  | programTooLong
deriving DecidableEq, Repr

/-- The machine right after reset, with the empty program (R37, R63, R270): the values of R37's table, and the log's
values for the model's own fields (log entries 2, 6, 10). -/
def State.reset : State where
  addrMax := Config.defaultAddrMax
  ip := 0
  rb := 0
  st := .running
  fk := none
  busy := false
  mem := []
  inq := []
  outq := []
  pending := []
  replies := []

end Sys2Proof.Machine
end

