-- ==== Sys2Proof/Machine/Ops.lean ====
section
/-! DEFINITION. The named operations over memory and registers, and the fault entry.

Spec: 00_scope.md R10 (the primitives); 20_memory.md R53 to R57, R63; 60_exceptions.md R238. -/

namespace Sys2Proof.Machine

/-! ## Memory -/

/-- What an unlisted cell reads as: 0 (R53, R63). -/
abbrev Memory.unlisted : Word := 0

/-- `MemRead(a, 1)` (R53). -/
def Memory.read (m : Memory) (a : Nat) : Word :=
  match m with
  | [] => Memory.unlisted
  | (b, u) :: rest => if a = b then u else Memory.read rest a

/-- Lists cell `a` before the cells of `rest`, unless it holds the value of an unlisted cell. -/
def Memory.cons (a : Nat) (v : Word) (rest : Memory) : Memory :=
  if v = Memory.unlisted then rest else (a, v) :: rest

/-- `MemWrite(a, 1, v)` (R54), keeping the canonical form. -/
def Memory.write (m : Memory) (a : Nat) (v : Word) : Memory :=
  match m with
  | [] => Memory.cons a v []
  | (b, u) :: rest =>
    if a < b then Memory.cons a v ((b, u) :: rest)
    else if a = b then Memory.cons a v rest
    else (b, u) :: Memory.write rest a v

/-- The memory whose cells from `k` on are `cells` and whose other cells are unlisted. -/
def Memory.loadFrom (k : Nat) : List Word → Memory
  | [] => []
  | v :: vs => Memory.cons k v (Memory.loadFrom (k + 1) vs)

/-- The initial contents for a program: cell i is p_i, every other cell 0 (R63). -/
def Memory.load (program : List Word) : Memory := Memory.loadFrom 0 program

/-- All listed indices are above `k`. -/
def Memory.above (k : Nat) (m : Memory) : Bool := m.all fun c => decide (k < c.1)

/-- The canonical form: indices strictly rising, and no listed cell holds what an unlisted one reads as. -/
def Memory.wf : Memory → Bool
  | [] => true
  | (a, v) :: rest => decide (v ≠ Memory.unlisted) && Memory.above a rest && Memory.wf rest

/-- Every listed cell exists: its index is at most `max` (R52). -/
def Memory.within (max : Nat) (m : Memory) : Bool := m.all fun c => decide (c.1 ≤ max)

/-! ## Indices -/

/-- `CheckAddr(a)` (R10, R56, R57): the exact integer index, range-checked and never wrapped (R140). -/
def checkAddr (max : Nat) (a : Int) : Except FaultKind Nat :=
  if a < 0 then .error .negativeMemoryIndex
  else if (max : Int) < a then .error .addressLimit
  else .ok a.toNat

/-! ## Registers, memory and queues of the state -/

/-- `IP <- a`. -/
def State.setIp (s : State) (a : Nat) : State := { s with ip := a }

/-- `RB <- v`. -/
def State.setRb (s : State) (v : Word) : State := { s with rb := v }

/-- `MemWrite(a, 1, v)`. -/
def State.writeCell (s : State) (a : Nat) (v : Word) : State := { s with mem := s.mem.write a v }

/-- `OutPush(v)`: appends at the tail of OUTQ (R34, R203). -/
def State.pushOutput (s : State) (v : Word) : State := { s with outq := s.outq ++ [v] }

/-- What is left in INQ after `InPop()` (R33, R202). -/
def State.dropInput (s : State) (rest : List Word) : State := { s with inq := rest }

/-! ## The three ways a run ends -/

/-- `raise Fault(kind)`, the fault entry (R238): the one shared operation that takes an exception. Nothing is saved and
control goes nowhere, so IP keeps the address of the faulting word (R239, R240). There is no return from a fault (R241): only
the host's reset leaves ST = Faulted. -/
def State.raise (s : State) (kind : FaultKind) : State :=
  { s with st := .faulted, fk := some kind, busy := false }

/-- IN with the input queue empty (R181). -/
def State.suspend (s : State) : State := { s with st := .awaitingInput, busy := false }

/-- HLT (R193). -/
def State.halt (s : State) : State := { s with st := .halted, busy := false }

/-- Ends an instruction (R111, R118): the state its checks and effect computed, or the entry of the first fault they met, from
the state the step began with (R239). -/
def commit (s : State) (r : Except FaultKind State) : Host.Outcome State Fault Refusal :=
  match r with
  | .ok s' => .next s'
  | .error kind => .next (s.raise kind)

/-! ## Fetch -/

/-- Phase 1 (R112): the word at IP. `none` only where IP is above ADDR_MAX, which no reachable state has (R38). -/
def State.fetch (s : State) : Option Word :=
  if s.ip ≤ s.addrMax then some (s.mem.read s.ip) else none

/-- The fault the decoder's rejection raises (R98, R230). -/
def rejectionFault : Rejection → FaultKind
  | .unknownOpcode => .unknownOpcode
  | .invalidAddressingMode => .invalidAddressingMode
  | .invalidWriteTarget => .invalidWriteTarget

/-- Stores `cells` from index `a` on, as far as the memory reaches. -/
def State.placeCells (s : State) (a : Nat) : List Word → State
  | [] => s
  | v :: vs => (if a ≤ s.addrMax then s.writeCell a v else s).placeCells (a + 1) vs

end Sys2Proof.Machine
end

