-- ==== Sys2Proof/Machine/Flags.lean ====
section
/-! DEFINITION. The ALU's outputs and the conditions of the jumps.

Spec: 42_alu.md R150, R156, R157, R158; 44_control_transfer.md R190, R191. The machine has no flags (10_state.md R30): a
comparison's result is the word 1 or 0, and a jump tests an ordinary operand against zero. -/

namespace Sys2Proof.Machine

/-- ALU `add` (R150, R156): the exact sum through `norm`. -/
def aluAdd (x y : Word) : Word := Config.norm (x.toInt + y.toInt)

/-- ALU `mul` (R150, R157): the exact product through `norm`. -/
def aluMul (x y : Word) : Word := Config.norm (x.toInt * y.toInt)

/-- ALU `lt` (R150, R158): a signed comparison. -/
def aluLt (x y : Word) : Word := if x.toInt < y.toInt then 1 else 0

/-- ALU `eq` (R150, R158). -/
def aluEq (x y : Word) : Word := if x.toInt = y.toInt then 1 else 0

/-- JT takes the jump on any non-zero value (R190). -/
def whenTrue (a : Word) : Bool := decide (a.toInt ≠ 0)

/-- JF takes the jump on zero (R191). -/
def whenFalse (a : Word) : Bool := decide (a.toInt = 0)

end Sys2Proof.Machine
end

