-- ==== Sys2Proof/Machine/Operands.lean ====
section
/-! DEFINITION. The addressing-mode resolver: parameter cells, read operands, write operands.

Spec: 41_addressing_resolver.md R130 to R143. It writes nothing (R130, R141). -/

namespace Sys2Proof.Machine

/-- Parameter fetch (R131): the cell at IP + i. RB plays no part in locating it. -/
def fetchParam (s : State) (i : Nat) : Except FaultKind Word := do
  let pa ← checkAddr s.addrMax ((s.ip : Int) + i)
  return s.mem.read pa

/-- `ResolveRead(i, m)` (R132, R133, R134). Addresses are exact sums (R140; decision D3). -/
def resolveRead (s : State) (i : Nat) (m : Mode) : Except FaultKind Word := do
  let p ← fetchParam s i
  match m with
  | .position => do
    let ea ← checkAddr s.addrMax p.toInt
    return s.mem.read ea
  | .immediate => return p
  | .relative => do
    let ea ← checkAddr s.addrMax (s.rb.toInt + p.toInt)
    return s.mem.read ea

/-- `ResolveWrite(i, m)` (R135, R136). The immediate form does not exist (R137): the decoder rejects it, and an ill-formed
instruction that carries it takes the same fault here, log entry 12. -/
def resolveWrite (s : State) (i : Nat) (m : Mode) : Except FaultKind Nat :=
  match m with
  | .position => do
    let p ← fetchParam s i
    checkAddr s.addrMax p.toInt
  | .immediate => .error .invalidWriteTarget
  | .relative => do
    let p ← fetchParam s i
    checkAddr s.addrMax (s.rb.toInt + p.toInt)

/-- The next-IP check of a fixed advance (R117): IP + L. -/
def nextIp (s : State) (len : Nat) : Except FaultKind Nat :=
  checkAddr s.addrMax ((s.ip : Int) + len)

end Sys2Proof.Machine
end

