-- ==== Sys2Proof/Machine/Alu.lean ====
section
/-! DEFINITION. The meanings of ADD, MUL, LT, EQ and ARB.

Spec: 42_alu.md R151 to R155. All reads precede the one write (20_memory.md R65), and every check precedes the effect
(40_instruction_cycle.md R111). -/

namespace Sys2Proof.Machine

/-- The common form of opcodes 1, 2, 7 and 8: `dst := f a b`, advance 4 (R121). -/
def storeResult (f : Word → Word → Word) (a b dst : Mode) (s : State) : Host.Outcome State Fault Refusal :=
  commit s do
    let x ← resolveRead s 1 a
    let y ← resolveRead s 2 b
    let ea ← resolveWrite s 3 dst
    let nip ← nextIp s 4
    return (s.writeCell ea (f x y)).setIp nip

/-- ADD (R151). -/
def execAdd (a b dst : Mode) (s : State) : Host.Outcome State Fault Refusal := storeResult aluAdd a b dst s

/-- MUL (R152). -/
def execMul (a b dst : Mode) (s : State) : Host.Outcome State Fault Refusal := storeResult aluMul a b dst s

/-- LT (R153). -/
def execLt (a b dst : Mode) (s : State) : Host.Outcome State Fault Refusal := storeResult aluLt a b dst s

/-- EQ (R154). -/
def execEq (a b dst : Mode) (s : State) : Host.Outcome State Fault Refusal := storeResult aluEq a b dst s

/-- ARB (R155): the operand is resolved with the old RB, and the new RB is not range-checked. -/
def execArb (a : Mode) (s : State) : Host.Outcome State Fault Refusal :=
  commit s do
    let x ← resolveRead s 1 a
    let nip ← nextIp s 2
    return (s.setRb (aluAdd s.rb x)).setIp nip

end Sys2Proof.Machine
end

