-- ==== Sys2Proof/Machine/Control.lean ====
section
/-! DEFINITION. The meanings of JT, JF and HLT.

Spec: 44_control_transfer.md R190 to R195. -/

namespace Sys2Proof.Machine

/-- The IP a jump chooses, checked before it is assigned (R117, R192): the target, an absolute index, or IP + 3. -/
def jumpIp (s : State) (taken : Bool) (target : Word) : Except FaultKind Nat :=
  if taken then checkAddr s.addrMax target.toInt else nextIp s 3

/-- The common form of the jumps: both operands are always resolved (R116; decision D9), and the target is an operand value
(R192). -/
def jumpWhen (taken : Word → Bool) (a target : Mode) (s : State) : Host.Outcome State Fault Refusal :=
  commit s do
    let x ← resolveRead s 1 a
    let t ← resolveRead s 2 target
    let nip ← jumpIp s (taken x) t
    return s.setIp nip

/-- JT (R190). -/
def execJt (a target : Mode) (s : State) : Host.Outcome State Fault Refusal := jumpWhen whenTrue a target s

/-- JF (R191). -/
def execJf (a target : Mode) (s : State) : Host.Outcome State Fault Refusal := jumpWhen whenFalse a target s

/-- HLT (R193): IP stays at the HLT word (decision D13, log entry 17), and no next-IP check is made (R117). -/
def execHlt (s : State) : Host.Outcome State Fault Refusal := .next s.halt

end Sys2Proof.Machine
end

