-- ==== Sys2Proof/Machine/Io.lean ====
section
/-! DEFINITION. The meanings of IN and OUT.

Spec: 43_io.md R180 to R183. -/

namespace Sys2Proof.Machine

/-- IN (R180, R181): the destination and the next IP are checked before the queue is tested (decision D15). With a value
available its pop, the store and the advance are one transition (R118); with none, the run suspends and IP stays. -/
def execInp (dst : Mode) (s : State) : Host.Outcome State Fault Refusal :=
  commit s do
    let ea ← resolveWrite s 1 dst
    let nip ← nextIp s 2
    match s.inq with
    | [] => return s.suspend
    | v :: rest => return ((s.dropInput rest).writeCell ea v).setIp nip

/-- OUT (R182). -/
def execOut (a : Mode) (s : State) : Host.Outcome State Fault Refusal :=
  commit s do
    let x ← resolveRead s 1 a
    let nip ← nextIp s 2
    return (s.pushOutput x).setIp nip

end Sys2Proof.Machine
end

