-- ==== Sys2Proof/Machine/Transactions.lean ====
section
/-! DEFINITION. The host's transactions: reset, poke, the beginning of run and its return.

Spec: 45_run_interface.md R205 to R213; 70_reset_and_hazards.md R270, R279; 60_exceptions.md R252. -/

namespace Sys2Proof.Machine

/-- Adds an answer to the host's log. -/
def State.reply (s : State) (r : HostReply) : State := { s with replies := s.replies ++ [r] }

/-- The machine that `reset(p)` constructs (R37, R270). ADDR_MAX is the same hardware's, and the host's own script and log go
on (log entry 6). -/
def State.construct (s : State) (program : List Word) : State :=
  { State.reset with
    addrMax := s.addrMax
    mem := Memory.load program
    pending := s.pending
    replies := s.replies }

/-- The beginning of `run(inputs)` (R208). -/
def State.beginRun (s : State) (inputs : List Word) : State :=
  { s with inq := inputs, outq := [], st := .running, busy := true }

/-- The result a run returns, read from the state in which BUSY went back to 0 (R210); none while ST = Running. -/
def State.runResult (s : State) : Option HostReply :=
  match s.st, s.fk with
  | .awaitingInput, _ => some (.progress s.outq)
  | .halted, _ => some (.halted s.outq)
  | .faulted, some kind => some (.faulted kind s.outq)
  | .faulted, none => none
  | .running, _ => none

/-- The return of a run: when the core's step has cleared BUSY, the host has its result (R209, R210, R279). -/
def State.deliver (s : State) : State :=
  if s.busy then s
  else
    match s.runResult with
    | some r => s.reply r
    | none => s

/-- A step of the core with the return of the run that it may end. -/
def delivered (r : Host.Outcome State Fault Refusal) : Host.Outcome State Fault Refusal :=
  match r with
  | .next s => .next s.deliver
  | .fault f => .fault f
  | .refused f => .refused f

/-- One transaction of the host, at a time when BUSY = 0. -/
def hostCall (c : HostCall) (s : State) : Host.Outcome State Fault Refusal :=
  match c with
  | .reset program =>
    if program.length ≤ s.addrMax + 1 then .next (s.construct program) else .refused .programTooLong
  | .poke a v =>
    match checkAddr s.addrMax a with
    | .ok i => .next (s.writeCell i v)
    | .error _ => .next (s.reply .badPokeIndex)
  | .run inputs =>
    match s.st with
    | .running => .next (s.beginRun inputs)
    | .awaitingInput => .next (s.beginRun inputs)
    | .halted => .next (s.reply .runAfterHalt)
    | .faulted => .next (s.reply .runAfterFault)

/-- The host's move: its next transaction; with none to come nothing changes (R110), log entry 7. -/
def hostMove (s : State) : Host.Outcome State Fault Refusal :=
  match s.pending with
  | [] => .next s
  | c :: rest => hostCall c { s with pending := rest }

end Sys2Proof.Machine
end

