-- ==== Sys2Proof/Machine/Step.lean ====
section
/-! DEFINITION. The step: the core's while BUSY = 1, the host's while BUSY = 0.

Spec: 40_instruction_cycle.md R110, R111, R121; 70_reset_and_hazards.md R279. -/

namespace Sys2Proof.Machine

/-- One step. While BUSY = 1 the core fetches, decodes and executes one instruction, a rejected word taking its fault
(R112, R113, R121); while BUSY = 0 the host moves (R279). -/
def step (s : State) : Host.Outcome State Fault Refusal :=
  if s.busy then
    match s.fetch with
    | none => .fault .fetchOutOfRange
    | some w =>
      match decode w with
      | .error r => delivered (.next (s.raise (rejectionFault r)))
      | .ok i => delivered (exec i s)
  else hostMove s

/-- `s` with the instruction whose bits are `w` (numbered as `decodeTableWord` reads them) in the cells at IP, four cells being the
longest instruction (R80), and a run in progress (R208), so that the next step executes it, log entry 10. -/
def State.withFetchWord (s : State) (nbits w : Nat) : State :=
  { s.placeCells s.ip ((List.range 4).map (tableCell nbits w)) with busy := true, st := .running, fk := none }

end Sys2Proof.Machine
end

