-- ==== Sys2Proof/Safety.lean ====
section
/-! DEFINITION. What the claims are stated in: the invariant of reachable states, the operand relations of the resolver written
without its functions, the opcode table as data, and runs.

Spec: 10_state.md R38; 41_addressing_resolver.md R131 to R143; 30_encoding.md R85 to R88, R94. -/

namespace Sys2Proof.Machine

/-! ## The invariant -/

/-- What holds in every reachable state (R38), with the canonical form of the memory list. R38's clause about the word at IP
while the core waits for input is left out, since a poke may break it (R38, R206). -/
structure State.Inv (s : State) : Prop where
  /-- The constraint on the parameter ADDR_MAX (R6). -/
  addrMax_le : s.addrMax ≤ Config.defaultAddrMax
  /-- IP names a cell (R38, clause 1). -/
  ip_le : s.ip ≤ s.addrMax
  /-- The memory list is canonical. -/
  mem_wf : s.mem.wf = true
  /-- Only existing cells are listed (R52). -/
  mem_within : s.mem.within s.addrMax = true
  /-- FK holds a kind exactly when ST = Faulted (R27; R38, clause 4). -/
  fk_iff : s.fk ≠ none ↔ s.st = .faulted
  /-- BUSY = 1 implies ST = Running (R38, clause 5). -/
  running_of_busy : s.busy = true → s.st = .running
  /-- INQ is empty while the core waits for input (R38, clause 6). -/
  inq_of_waiting : s.st = .awaitingInput → s.inq = []

/-! ## Operands, as relations over memory, IP, RB and ADDR_MAX -/

/-- The parameter cell of slot `i` exists and holds `p` (R131). -/
def ParamIs (s : State) (i : Nat) (p : Word) : Prop :=
  s.ip + i ≤ s.addrMax ∧ s.mem.read (s.ip + i) = p

/-- The index that mode `m` forms from a parameter `p`, an exact integer (R139, R140); an immediate forms none. -/
def indexOf (s : State) (m : Mode) (p : Word) : Option Int :=
  match m with
  | .position => some p.toInt
  | .immediate => none
  | .relative => some (s.rb.toInt + p.toInt)

/-- Slot `i` with mode `m` addresses the existing cell `ea` (R132, R134, R135, R136). -/
def EffAddr (s : State) (i : Nat) (m : Mode) (ea : Nat) : Prop :=
  ∃ p, ParamIs s i p ∧ indexOf s m p = some (ea : Int) ∧ ea ≤ s.addrMax

/-- The read operand of slot `i` with mode `m` is `v` (R143, the column of read operands). -/
def Operand (s : State) (i : Nat) (m : Mode) (v : Word) : Prop :=
  (m = .immediate ∧ ParamIs s i v) ∨ ∃ ea, EffAddr s i m ea ∧ s.mem.read ea = v

/-- The index `z` is out of range, and `k` is the fault it raises (R56, R57). -/
def IndexFault (s : State) (z : Int) (k : FaultKind) : Prop :=
  (z < 0 ∧ k = .negativeMemoryIndex) ∨ ((s.addrMax : Int) < z ∧ k = .addressLimit)

/-- Resolving slot `i` with mode `m` raises `k`: on the parameter's index, else on the effective address (R237, item 3). -/
def SlotFault (s : State) (i : Nat) (m : Mode) (k : FaultKind) : Prop :=
  IndexFault s ((s.ip : Int) + i) k ∨ ∃ p z, ParamIs s i p ∧ indexOf s m p = some z ∧ IndexFault s z k

/-- The state after the entry of a fault: ST, FK and BUSY take their values and nothing else changes (R238, R239). -/
def faultState (s : State) (k : FaultKind) : State :=
  { s with st := .faulted, fk := some k, busy := false }

/-! ## The two shapes that several instructions share -/

/-- `mk a b dst` stores `f a b`: it completes when its operands resolve and IP + 4 exists, and otherwise takes the fault of its
first failing check, in the order slot 1, slot 2, slot 3, next IP (R121; R237, items 3 and 4; decision D8, log entry 16). -/
def StoresResult (mk : Mode → Mode → Mode → Instr) (f : Word → Word → Word) : Prop :=
  ∀ (s : State) (a b dst : Mode), dst ≠ .immediate →
    (∀ x y ea, Operand s 1 a x → Operand s 2 b y → EffAddr s 3 dst ea → s.ip + 4 ≤ s.addrMax →
      exec (mk a b dst) s = .next { s with mem := s.mem.write ea (f x y), ip := s.ip + 4 }) ∧
    (∀ k, SlotFault s 1 a k → exec (mk a b dst) s = .next (faultState s k)) ∧
    (∀ x k, Operand s 1 a x → SlotFault s 2 b k → exec (mk a b dst) s = .next (faultState s k)) ∧
    (∀ x y k, Operand s 1 a x → Operand s 2 b y → SlotFault s 3 dst k →
      exec (mk a b dst) s = .next (faultState s k)) ∧
    (∀ x y ea, Operand s 1 a x → Operand s 2 b y → EffAddr s 3 dst ea → s.addrMax < s.ip + 4 →
      exec (mk a b dst) s = .next (faultState s .addressLimit))

/-- `mk a target` jumps when `taken` holds of its first operand: to the value of its second, else to IP + 3; and otherwise takes
the fault of its first failing check, in the order slot 1, slot 2, chosen IP (R121, R192; R237, items 3 and 5; decision D8, log
entry 16). -/
def JumpsWhen (mk : Mode → Mode → Instr) (taken : Word → Prop) : Prop :=
  ∀ (s : State) (a target : Mode),
    (∀ (x t : Word) (n : Nat), Operand s 1 a x → Operand s 2 target t → taken x → t.toInt = (n : Int) → n ≤ s.addrMax →
      exec (mk a target) s = .next { s with ip := n }) ∧
    (∀ x t, Operand s 1 a x → Operand s 2 target t → ¬ taken x → s.ip + 3 ≤ s.addrMax →
      exec (mk a target) s = .next { s with ip := s.ip + 3 }) ∧
    (∀ k, SlotFault s 1 a k → exec (mk a target) s = .next (faultState s k)) ∧
    (∀ x k, Operand s 1 a x → SlotFault s 2 target k → exec (mk a target) s = .next (faultState s k)) ∧
    (∀ x t k, Operand s 1 a x → Operand s 2 target t → taken x → IndexFault s t.toInt k →
      exec (mk a target) s = .next (faultState s k)) ∧
    (∀ x t, Operand s 1 a x → Operand s 2 target t → ¬ taken x → s.addrMax < s.ip + 3 →
      exec (mk a target) s = .next (faultState s .addressLimit))

/-! ## The opcode table as data -/

/-- A row of the dispatch table: opcode, parameter count, write slot (R85, R86, R88, R114). -/
structure OpcodeRow where
  op : Nat
  params : Nat
  writeSlot : Option Nat
deriving DecidableEq, Repr

/-- The ten rows (R91, R114). -/
def opcodeMap : List OpcodeRow :=
  [⟨1, 3, some 3⟩, ⟨2, 3, some 3⟩, ⟨3, 1, some 1⟩, ⟨4, 1, none⟩, ⟨5, 2, none⟩, ⟨6, 2, none⟩, ⟨7, 3, some 3⟩,
    ⟨8, 3, some 3⟩, ⟨9, 1, none⟩, ⟨99, 0, none⟩]

/-- What is wrong with the mode digit of slot `i` of a word of row `r` (R87). -/
def slotReject (r : OpcodeRow) (w i : Nat) : Option Rejection :=
  if 2 < digit w (i + 1) then some .invalidAddressingMode
  else if r.writeSlot = some i ∧ digit w (i + 1) = 1 then some .invalidWriteTarget
  else none

/-- A canonical word (R94): at most 99999, and the mode digit of every slot its opcode lacks is 0. -/
def Canonical (w : Word) : Prop :=
  0 ≤ w.toInt ∧ w.toInt ≤ 99999 ∧
    ∀ r ∈ opcodeMap, r.op = w.toNat % 100 → ∀ i ∈ [1, 2, 3], r.params < i → digit w.toNat (i + 1) = 0

/-- The words of an instruction (R81, R83, R91): a canonical word with the opcode `op` decodes to `i` exactly when `i` is well formed and
the mode digit of each of its slots is that of its mode; and the decoder rejects such a word only for a reason in `reasons`. -/
def HasWords (op : Nat) (i : Instr) (reasons : List Rejection) : Prop :=
  ∀ w : Word, Canonical w → w.toNat % 100 = op →
    (decode w = .ok i ↔ i.wf = true ∧ ∀ k m, i.modes[k]? = some m → digit w.toNat (k + 2) = m.digit) ∧
    ∀ e, decode w = .error e → e ∈ reasons

/-! ## Runs -/

/-- `n` steps lead from `s` to `t`, none of them stopping: what `Host.Core.run` computes. -/
def RunsTo : Nat → State → State → Prop
  | 0, s, t => s = t
  | n + 1, s, t => ∃ u, step s = .next u ∧ RunsTo n u t

/-- The host has no reset among the transactions to come. -/
def NoReset (s : State) : Prop := ∀ p, HostCall.reset p ∉ s.pending

/-- The host has no poke of cell `a` among the transactions to come. -/
def NoPoke (s : State) (a : Nat) : Prop := ∀ v, HostCall.poke (a : Int) v ∉ s.pending

end Sys2Proof.Machine
end

