-- ==== Sys2Proof/Certificates/Slice0/Obligations.lean ====
section
/-! DEFINITION. The statements for the provers. Each docstring names the rule of spec/ it formalises, and the spec's own decision
(spec/92_eei_decisions.md D<n>) or the log entry it rests on, if any. -/

open Sys2Proof Sys2Proof.Machine

/-! ## Encoding -/

/-- R94, R98: decoding the canonical word of a well-formed instruction gives the instruction back, every operand mode at every
value, and the word is canonical. -/
def Obligations.DecodeOfEncodeGivesBackInstruction : Prop :=
  ∀ i : Instr, i.wf = true → decode (encode i) = .ok i ∧ Canonical (encode i)

/-- R94: a canonical word that decodes is the encoding of what it decodes to, so each instruction has at most one canonical word;
that a well-formed one has one is DecodeOfEncodeGivesBackInstruction. -/
def Obligations.EncodeOfDecodeGivesBackCanonicalWord : Prop :=
  ∀ (w : Word) (i : Instr), Canonical w → decode w = .ok i → encode i = w

/-- R92: the words the decoder calls unknown are exactly the negative ones and those whose two lowest decimal digits are no
opcode of the table. That a negative word is one of them is the spec's decision D5. -/
def Obligations.UnknownOpcodeExactlyOutsideTable : Prop :=
  ∀ w : Word, decode w = .error .unknownOpcode ↔ w.toInt < 0 ∨ ∀ r ∈ opcodeMap, r.op ≠ w.toNat % 100

/-- R87, R98: for a word of a row of the table, the decoder reports the first slot, in the order 1, 2, 3, whose mode digit is not
legal, by the name of what is wrong with it, and accepts exactly the words with none. That the first slot is the one reported is the
spec's decision D8 (log entry 16); that a word is accepted whatever its other digits are, its decisions D6 and D7 (log entry 13). -/
def Obligations.ModeDigitsCheckedInSlotOrder : Prop :=
  ∀ (w : Word) (r : OpcodeRow), r ∈ opcodeMap → 0 ≤ w.toInt → w.toNat % 100 = r.op →
    (∀ e, decode w = .error e ↔ ∃ i, 1 ≤ i ∧ i ≤ r.params ∧ slotReject r w.toNat i = some e ∧
      ∀ j, 1 ≤ j → j < i → slotReject r w.toNat j = none) ∧
    ((∃ i, decode w = .ok i) ↔ ∀ j, 1 ≤ j → j ≤ r.params → slotReject r w.toNat j = none)

/-- R81, R83, R85, R86: the decoded instruction is well formed, its opcode is the two lowest digits of the word, it has the
parameters and the write slot of that opcode's row, and the mode of slot k is the digit at the place 10^(k + 1). That no negative
word decodes (R82) is the spec's decision D5 (log entry 19). -/
def Obligations.DecodedInstructionFollowsDigits : Prop :=
  ∀ (w : Word) (i : Instr), decode w = .ok i →
    i.wf = true ∧ 0 ≤ w.toInt ∧ i.opcode = w.toNat % 100 ∧
      ∃ r ∈ opcodeMap, r.op = i.opcode ∧ i.length = r.params + 1 ∧ i.writeSlot = r.writeSlot ∧
        ∀ k m, i.modes[k]? = some m → digit w.toNat (k + 2) = m.digit

/-- R84, R89 (the spec's decisions D6 and D7): two non-negative words with the same opcode and the same mode digits in the slots
that the opcode has decode alike, whatever their other digits. -/
def Obligations.OnlyExaminedDigitsMatter : Prop :=
  ∀ (w w' : Word) (r : OpcodeRow), r ∈ opcodeMap → 0 ≤ w.toInt → 0 ≤ w'.toInt → w.toNat % 100 = r.op →
    w'.toNat % 100 = r.op → (∀ i, 1 ≤ i → i ≤ r.params → digit w.toNat (i + 1) = digit w'.toNat (i + 1)) →
    decode w = decode w'

/-- R99: words of the spec's table of decode examples. -/
def Obligations.DecodeExamplesOfTheSpec : Prop :=
  decode 1 = .ok (.add .position .position .position) ∧ decode 1102 = .ok (.mul .immediate .immediate .position) ∧
  decode 203 = .ok (.inp .relative) ∧ decode 204 = .ok (.out .relative) ∧
  decode 1006 = .ok (.jf .position .immediate) ∧ decode 21107 = .ok (.lt .immediate .immediate .relative) ∧
  decode 1008 = .ok (.eq .position .immediate .position) ∧ decode 109 = .ok (.arb .immediate) ∧ decode 99 = .ok .hlt ∧
  decode 0 = .error .unknownOpcode ∧ decode 90001 = .error .invalidAddressingMode ∧
  decode 103 = .error .invalidWriteTarget

/-! ## Memory -/

/-- R53, R55: the canonical form is one list for one memory: two canonical lists that agree on every read are equal. The
representation is the model's, log entry 1. -/
def Obligations.CanonicalMemoriesEqualByReads : Prop :=
  ∀ m m' : Memory, m.wf = true → m'.wf = true → (∀ a, m.read a = m'.read a) → m = m'

/-- R145: a value stored through a write operand is what a later read operand with the same effective address returns, whatever the
two modes and whatever RB and IP are then, provided the cell still holds what the store left there. -/
def Obligations.StoredValueReadBackThroughAnyMode : Prop :=
  ∀ (s t : State) (i j : Nat) (m m' : Mode) (ea : Nat) (v : Word), s.mem.wf = true →
    resolveWrite s i m = .ok ea → t.mem.read ea = (s.writeCell ea v).mem.read ea → EffAddr t j m' ea →
    resolveRead t j m' = .ok v

/-! ## The ALU -/

/-- R8 (the spec's decision D2): `wrap64 z` is congruent to z modulo 2^64, and it is the only such word. -/
def Obligations.WrapIsTheUniqueCongruentWord : Prop :=
  ∀ z : Int, (wrap64 z).toInt % 2 ^ 64 = z % 2 ^ 64 ∧ ∀ w : Word, w.toInt % 2 ^ 64 = z % 2 ^ 64 → w = wrap64 z

/-- R156 (the spec's decision D2): the sum is exact in range, less 2^64 on positive overflow, plus 2^64 on negative overflow;
addition is commutative, 0 is its identity, and a word and its wrapped negation add to 0. -/
def Obligations.SumIsExactOrOffByTwoTo64 : Prop :=
  ∀ x y : Word,
    (-2 ^ 63 ≤ x.toInt + y.toInt → x.toInt + y.toInt < 2 ^ 63 → (aluAdd x y).toInt = x.toInt + y.toInt) ∧
    (2 ^ 63 ≤ x.toInt + y.toInt → (aluAdd x y).toInt = x.toInt + y.toInt - 2 ^ 64) ∧
    (x.toInt + y.toInt < -2 ^ 63 → (aluAdd x y).toInt = x.toInt + y.toInt + 2 ^ 64) ∧
    aluAdd x y = aluAdd y x ∧ aluAdd x 0 = x ∧ aluAdd x (wrap64 (-x.toInt)) = 0

/-- R157 (the spec's decision D2): the product is exact in range and always congruent to the exact product modulo 2^64;
multiplication is commutative, 1 is its identity, and anything times 0 is 0. -/
def Obligations.ProductIsExactModuloTwoTo64 : Prop :=
  ∀ x y : Word,
    (-2 ^ 63 ≤ x.toInt * y.toInt → x.toInt * y.toInt < 2 ^ 63 → (aluMul x y).toInt = x.toInt * y.toInt) ∧
    (aluMul x y).toInt % 2 ^ 64 = (x.toInt * y.toInt) % 2 ^ 64 ∧
    aluMul x y = aluMul y x ∧ aluMul x 1 = x ∧ aluMul x 0 = 0

/-- R158: LT and EQ give exactly 1 or 0, by the signed integers; lt(x, x) = 0, eq is symmetric, and exactly one of lt(x, y),
eq(x, y), lt(y, x) is 1. -/
def Obligations.ComparisonsAreSignedAndTrichotomous : Prop :=
  ∀ x y : Word,
    (aluLt x y = 1 ∨ aluLt x y = 0) ∧ (aluEq x y = 1 ∨ aluEq x y = 0) ∧
    (aluLt x y = 1 ↔ x.toInt < y.toInt) ∧ (aluEq x y = 1 ↔ x.toInt = y.toInt) ∧
    aluLt x x = 0 ∧ aluEq x y = aluEq y x ∧
    ((aluLt x y = 1 ∧ aluEq x y = 0 ∧ aluLt y x = 0) ∨ (aluLt x y = 0 ∧ aluEq x y = 1 ∧ aluLt y x = 0) ∨
      (aluLt x y = 0 ∧ aluEq x y = 0 ∧ aluLt y x = 1))

/-! ## Instructions: where each completes, with its whole next state, and where it faults -/

/-- R151: ADD, the words of pattern CBA01. The wrapped sum is the spec's decision D2 (log entry 3). Which fault is reported where
several checks fail, in the order slot 1, slot 2, slot 3, next IP, is the spec's decision D8 (log entry 16), and the range checks of
indices its decisions D3, D4 and D22 (log entry 20). -/
def Obligations.AddStoresWrappedSum : Prop :=
  (∀ a b dst, HasWords 1 (.add a b dst) [.invalidAddressingMode, .invalidWriteTarget]) ∧
    StoresResult .add fun x y => wrap64 (x.toInt + y.toInt)

/-- R152: MUL, the words of pattern CBA02. The wrapped product is the spec's decision D2 (log entry 3). Which fault is reported
where several checks fail, in the order slot 1, slot 2, slot 3, next IP, is the spec's decision D8 (log entry 16), and the range
checks of indices its decisions D3, D4 and D22 (log entry 20). -/
def Obligations.MulStoresWrappedProduct : Prop :=
  (∀ a b dst, HasWords 2 (.mul a b dst) [.invalidAddressingMode, .invalidWriteTarget]) ∧
    StoresResult .mul fun x y => wrap64 (x.toInt * y.toInt)

/-- R153: LT, the words of pattern CBA07, stores 1 when a < b as signed integers, else 0. Which fault is reported where several
checks fail, in the order slot 1, slot 2, slot 3, next IP, is the spec's decision D8 (log entry 16), and the range checks of indices
its decisions D3, D4 and D22 (log entry 20). -/
def Obligations.LtStoresSignedComparison : Prop :=
  (∀ a b dst, HasWords 7 (.lt a b dst) [.invalidAddressingMode, .invalidWriteTarget]) ∧
    StoresResult .lt fun x y => if x.toInt < y.toInt then 1 else 0

/-- R154: EQ, the words of pattern CBA08, stores 1 when a = b, else 0. Which fault is reported where several checks fail, in the
order slot 1, slot 2, slot 3, next IP, is the spec's decision D8 (log entry 16), and the range checks of indices its decisions D3,
D4 and D22 (log entry 20). -/
def Obligations.EqStoresEquality : Prop :=
  (∀ a b dst, HasWords 8 (.eq a b dst) [.invalidAddressingMode, .invalidWriteTarget]) ∧
    StoresResult .eq fun x y => if x = y then 1 else 0

/-- R155, R161: ARB, the words of pattern 00A09, adds its operand, resolved with the old RB, to RB, and the new RB is not
range-checked. The wrapped sum is the spec's decision D2 (log entry 3). Which fault is reported where several checks fail, in the
order slot 1, next IP, is the spec's decision D8 (log entry 16), and the range checks of indices its decisions D3, D4 and D22 (log
entry 20). -/
def Obligations.ArbAddsOperandToRelativeBase : Prop :=
  ∀ (s : State) (a : Mode), HasWords 9 (.arb a) [.invalidAddressingMode] ∧
    (∀ x, Operand s 1 a x → s.ip + 2 ≤ s.addrMax →
      exec (.arb a) s = .next { s with rb := wrap64 (s.rb.toInt + x.toInt), ip := s.ip + 2 }) ∧
    (∀ k, SlotFault s 1 a k → exec (.arb a) s = .next (faultState s k)) ∧
    (∀ x, Operand s 1 a x → s.addrMax < s.ip + 2 → exec (.arb a) s = .next (faultState s .addressLimit))

/-- R180: IN, the words of pattern 00A03, with a value available consumes the head of INQ and stores it unchanged. A fault of its
destination or of the next IP comes before the queue is tested, so it is the same with an empty queue and consumes nothing (the
spec's decision D15, log entry 16). Which fault is reported where several checks fail, in the order slot 1, next IP, is the spec's
decision D8 (log entry 16), and the range checks of indices its decisions D3, D4 and D22 (log entry 20). -/
def Obligations.InStoresHeadOfQueue : Prop :=
  (∀ dst, HasWords 3 (.inp dst) [.invalidAddressingMode, .invalidWriteTarget]) ∧
  ∀ (s : State) (dst : Mode), dst ≠ .immediate →
    (∀ ea v rest, EffAddr s 1 dst ea → s.ip + 2 ≤ s.addrMax → s.inq = v :: rest →
      exec (.inp dst) s = .next { s with inq := rest, mem := s.mem.write ea v, ip := s.ip + 2 }) ∧
    (∀ k, SlotFault s 1 dst k → exec (.inp dst) s = .next (faultState s k)) ∧
    (∀ ea, EffAddr s 1 dst ea → s.addrMax < s.ip + 2 → exec (.inp dst) s = .next (faultState s .addressLimit))

/-- R181: after the checks have passed, IN with an empty queue sets ST and clears BUSY, and nothing else changes: IP still points at
it. That the checks come first is the spec's decision D15 (log entry 16). -/
def Obligations.InSuspendsOnEmptyQueue : Prop :=
  ∀ (s : State) (dst : Mode) (ea : Nat), EffAddr s 1 dst ea → s.ip + 2 ≤ s.addrMax → s.inq = [] →
    exec (.inp dst) s = .next { s with st := .awaitingInput, busy := false }

/-- R182: OUT, the words of pattern 00A04, appends its operand at the tail of OUTQ unchanged. Which fault is reported where several
checks fail, in the order slot 1, next IP, is the spec's decision D8 (log entry 16), and the range checks of indices its decisions
D3, D4 and D22 (log entry 20). -/
def Obligations.OutAppendsOperand : Prop :=
  ∀ (s : State) (a : Mode), HasWords 4 (.out a) [.invalidAddressingMode] ∧
    (∀ x, Operand s 1 a x → s.ip + 2 ≤ s.addrMax →
      exec (.out a) s = .next { s with outq := s.outq ++ [x], ip := s.ip + 2 }) ∧
    (∀ k, SlotFault s 1 a k → exec (.out a) s = .next (faultState s k)) ∧
    (∀ x, Operand s 1 a x → s.addrMax < s.ip + 2 → exec (.out a) s = .next (faultState s .addressLimit))

/-- R190, R192: JT, the words of pattern 0BA05. That the target of an untaken jump is resolved is the spec's decision D9 (log entry
16), and that the jump itself raises the fault of an out-of-range target its decision D3 (log entry 20). Which fault is reported
where several checks fail, in the order slot 1, slot 2, chosen IP, is its decision D8 (log entry 16), and the range checks of
indices its decisions D3, D4 and D22 (log entry 20). -/
def Obligations.JtJumpsOnNonZero : Prop :=
  (∀ a target, HasWords 5 (.jt a target) [.invalidAddressingMode]) ∧ JumpsWhen .jt fun x => x ≠ 0

/-- R191, R192: JF, the words of pattern 0BA06. The spec's decisions D9 and D3 as for JT. Which fault is reported where several
checks fail, in the order slot 1, slot 2, chosen IP, is its decision D8 (log entry 16), and the range checks of indices its
decisions D3, D4 and D22 (log entry 20). -/
def Obligations.JfJumpsOnZero : Prop :=
  (∀ a target, HasWords 6 (.jf a target) [.invalidAddressingMode]) ∧ JumpsWhen .jf fun x => x = 0

/-- R193: HLT, the word 99, sets ST and clears BUSY, in every state, and nothing else changes. That IP stays is the spec's decision
D13. -/
def Obligations.HltHalts : Prop :=
  HasWords 99 .hlt [] ∧ ∀ s : State, exec .hlt s = .next { s with st := .halted, busy := false }

/-- R137: an instruction with an immediate write operand, which the decoder never hands over, stores nothing: its only effect is the
entry of a fault. Which fault, where an earlier slot has one too, is the model's choice, log entry 12. -/
def Obligations.ImmediateWriteOperandNeverStores : Prop :=
  ∀ (i : Instr) (s : State), i.wf = false → ∃ k, exec i s = .next (faultState s k)

/-! ## Frames -/

/-- R163, R123: what ADD, MUL, LT and EQ leave unchanged, whatever they answer: every register but IP (and ST, FK, BUSY when the
instruction faults), the queues, and every cell but the one that the write operand resolves to. -/
def Obligations.StoringInstructionsFrame : Prop :=
  ∀ (i : Instr) (a b dst : Mode) (s t : State),
    (i = .add a b dst ∨ i = .mul a b dst ∨ i = .lt a b dst ∨ i = .eq a b dst) → exec i s = .next t →
    t.addrMax = s.addrMax ∧ t.rb = s.rb ∧ t.inq = s.inq ∧ t.outq = s.outq ∧ t.pending = s.pending ∧
    t.replies = s.replies ∧
    ((t.st = s.st ∧ t.fk = s.fk ∧ t.busy = s.busy) ∨ ∃ k, t = faultState s k) ∧
    (∀ ea, resolveWrite s 3 dst = .ok ea → ∀ c, c ≠ ea → t.mem.read c = s.mem.read c) ∧
    (∀ k, resolveWrite s 3 dst = .error k → ∀ c, t.mem.read c = s.mem.read c)

/-- R123, R163, R180, R181: what IN leaves unchanged: RB, FK (but for a fault), OUTQ, all of INQ but its head, and every cell but the
one that its operand resolves to; suspended, everything but ST and BUSY. -/
def Obligations.InputInstructionFrame : Prop :=
  ∀ (dst : Mode) (s t : State), exec (.inp dst) s = .next t →
    t.addrMax = s.addrMax ∧ t.rb = s.rb ∧ t.outq = s.outq ∧ t.pending = s.pending ∧ t.replies = s.replies ∧
    ((∃ v, s.inq = v :: t.inq ∧ t.st = s.st ∧ t.fk = s.fk ∧ t.busy = s.busy) ∨
      (s.inq = [] ∧ t = { s with st := .awaitingInput, busy := false }) ∨ ∃ k, t = faultState s k) ∧
    (∀ ea, resolveWrite s 1 dst = .ok ea → ∀ c, c ≠ ea → t.mem.read c = s.mem.read c) ∧
    (∀ k, resolveWrite s 1 dst = .error k → ∀ c, t.mem.read c = s.mem.read c)

/-- R123, R163: OUT, JT, JF, ARB and HLT store nothing: every cell reads as before. OUT alone changes OUTQ, ARB alone RB, HLT and a
fault alone ST and BUSY, a fault alone FK. -/
def Obligations.NonStoringInstructionsFrame : Prop :=
  ∀ (i : Instr) (s t : State), i.writeSlot = none → exec i s = .next t →
    (∀ c, t.mem.read c = s.mem.read c) ∧ t.addrMax = s.addrMax ∧ t.inq = s.inq ∧ t.pending = s.pending ∧
    t.replies = s.replies ∧ ((∀ a, i ≠ .arb a) → t.rb = s.rb) ∧ ((∀ a, i ≠ .out a) → t.outq = s.outq) ∧
    ((t.st = s.st ∧ t.fk = s.fk ∧ t.busy = s.busy) ∨
      (i = .hlt ∧ t = { s with st := .halted, busy := false }) ∨ ∃ k, t = faultState s k)

/-! ## The step -/

/-- R112, R113, R121: while BUSY = 1 and IP names a cell, a step is the decoded instruction's meaning; and where that ends the run, the
host is answered with the run's result (R210), an addition of the model's, log entry 6. -/
def Obligations.StepRunsDecodedInstruction : Prop :=
  ∀ (s t : State) (i : Instr), s.busy = true → s.ip ≤ s.addrMax → decode (s.mem.read s.ip) = .ok i →
    exec i s = .next t →
    (t.busy = true → step s = .next t) ∧
    (∀ r, t.busy = false → t.runResult = some r → step s = .next { t with replies := t.replies ++ [r] })

/-- R113, R238: a word the decoder rejects is a fault of the kind that names the rejection, with the state of a fault's entry. The
host's log aside (log entry 6). That the fault is a next state is log entry 5. -/
def Obligations.RejectedWordTakesItsFault : Prop :=
  ∀ (s : State) (e : Rejection), s.busy = true → s.ip ≤ s.addrMax → decode (s.mem.read s.ip) = .error e →
    ∃ t, step s = .next t ∧
      { t with replies := s.replies } = faultState s (match e with
        | .unknownOpcode => .unknownOpcode
        | .invalidAddressingMode => .invalidAddressingMode
        | .invalidWriteTarget => .invalidWriteTarget)

/-- R250: every word in every cell has a defined meaning: under the invariant a step of the core always has a next state, and so has
every move of the host but a reset with a program that does not fit (R63). That a fault is a next state, and not an outcome called
fault as in R250's table, is the model's choice, log entry 5; that the idle machine with no call to come steps to itself is its
inference from R110, log entry 7; that a refused call and a run's result are entries of the host's log is log entry 6; the stop for
the program that does not fit is log entry 9. -/
def Obligations.StepAlwaysAnswersUnderInvariant : Prop :=
  ∀ s : State, s.Inv →
    (s.busy = true ∨ ∀ p rest, s.pending = .reset p :: rest → p.length ≤ s.addrMax + 1) → ∃ t, step s = .next t

/-- R38, R20: every step, of the core or of the host, keeps the invariant. -/
def Obligations.StepKeepsInvariant : Prop :=
  ∀ s t : State, s.Inv → step s = .next t → t.Inv

/-- R37, R38: the state after reset meets the invariant. -/
def Obligations.ResetMeetsInvariant : Prop :=
  State.reset.Inv

/-- R37, R63: the values after reset with the empty program. BUSY, INQ and OUTQ are the spec's decision D12, ADDR_MAX its default
(D4), the rest the document's. -/
def Obligations.ResetValues : Prop :=
  State.reset.ip = 0 ∧ State.reset.rb = 0 ∧ State.reset.st = .running ∧ State.reset.halted = false ∧
  State.reset.fk = none ∧ State.reset.busy = false ∧ State.reset.inq = [] ∧ State.reset.outq = [] ∧
  State.reset.addrMax = 2 ^ 63 - 1 ∧ ∀ a, State.reset.mem.read a = 0

/-- R71, R39: no step of the core changes a cell other than the one addressed by the write operand of the instruction at IP. -/
def Obligations.StepChangesOnlyTheDestinationCell : Prop :=
  ∀ (s t : State) (c : Nat), s.busy = true → step s = .next t → t.mem.read c ≠ s.mem.read c →
    ∃ i slot m, decode (s.mem.read s.ip) = .ok i ∧ i.writeSlot = some slot ∧ i.modes[slot - 1]? = some m ∧
      EffAddr s slot m c

/-- R195, R22: a step that ends the run leaves IP; any other adds the instruction's length, but for JT and JF, which add 3 or load the
value of their target operand. -/
def Obligations.IpAdvancesByLengthOrJumps : Prop :=
  ∀ (s t : State) (i : Instr), s.busy = true → decode (s.mem.read s.ip) = .ok i → step s = .next t →
    (t.busy = false → t.ip = s.ip) ∧
    (t.busy = true → (∀ a g, i ≠ .jt a g ∧ i ≠ .jf a g) → t.ip = s.ip + i.length) ∧
    (t.busy = true → ∀ a g, i = .jt a g ∨ i = .jf a g →
      t.ip = s.ip + 3 ∨ ∃ v, Operand s 2 g v ∧ v.toInt = (t.ip : Int))

/-- R24: RB is changed only by ARB, to the wrapped sum (the spec's decision D2), and by the host's reset, to 0. -/
def Obligations.OnlyArbAndResetChangeRelativeBase : Prop :=
  ∀ s t : State, step s = .next t → t.rb ≠ s.rb →
    (s.busy = true ∧ ∃ a x, decode (s.mem.read s.ip) = .ok (.arb a) ∧ Operand s 1 a x ∧
      t.rb = wrap64 (s.rb.toInt + x.toInt)) ∨
    (s.busy = false ∧ t.rb = 0 ∧ ∃ p rest, s.pending = .reset p :: rest)

/-- R26: the halted flag is ST = Halted; it is false after reset, becomes true only by a step that executes HLT, and becomes false again
only by the host's reset; a fault does not set it. -/
def Obligations.HaltedFlagSetOnlyByHltClearedOnlyByReset : Prop :=
  ∀ s t : State, s.Inv → step s = .next t →
    (s.halted = false → t.halted = true → s.busy = true ∧ decode (s.mem.read s.ip) = .ok .hlt) ∧
    (s.halted = true → t.halted = false → s.busy = false ∧ ∃ p rest, s.pending = .reset p :: rest) ∧
    (t.st = .faulted → t.halted = false) ∧
    (s.busy = false → ∀ p rest, s.pending = .reset p :: rest → t.halted = false) ∧
    State.reset.halted = false ∧ (t.halted = true ↔ t.st = .halted)

/-- R239, R238 (the spec's decision D10): a step that faults has changed nothing but ST, FK and BUSY. The host's log aside. That the
fault is a next state is log entry 5. -/
def Obligations.FaultsArePrecise : Prop :=
  ∀ s t : State, s.Inv → s.busy = true → step s = .next t → t.st = .faulted →
    ∃ k, { t with replies := s.replies } = faultState s k

/-- R241; R38, clause 7 (the spec's decision D10): a halted or faulted machine stays as it is along every run without a reset; only a
cell that the host pokes can change. -/
def Obligations.StoppedMachineStaysStopped : Prop :=
  ∀ (n : Nat) (s t : State), s.Inv → s.st = .halted ∨ s.st = .faulted → NoReset s → RunsTo n s t →
    t.st = s.st ∧ t.fk = s.fk ∧ t.busy = false ∧ t.ip = s.ip ∧ t.rb = s.rb ∧ t.inq = s.inq ∧ t.outq = s.outq ∧
    ∀ c, NoPoke s c → t.mem.read c = s.mem.read c

/-- R209, R216: a step of the core ends the run exactly when it takes ST out of Running. -/
def Obligations.RunEndsExactlyWhenStatusLeavesRunning : Prop :=
  ∀ s t : State, s.Inv → s.busy = true → step s = .next t → (t.busy = true ↔ t.st = .running)

/-- R214, R181; R38, clause 6: a step of the core leaves the core waiting for input only where the instruction at IP is an IN that
passed its checks and found INQ empty; IP still points at it, and nothing but ST, BUSY and the host's log changed. That those checks
come before the queue is tested is the spec's decision D15. -/
def Obligations.SuspensionOnlyAtInput : Prop :=
  ∀ s t : State, s.Inv → s.busy = true → step s = .next t → t.st = .awaitingInput →
    ∃ dst ea, decode (t.mem.read t.ip) = .ok (.inp dst) ∧ EffAddr t 1 dst ea ∧ t.ip + 2 ≤ t.addrMax ∧ t.inq = [] ∧
      { t with replies := s.replies } = { s with st := .awaitingInput, busy := false }

/-- R33, R34, R183: along the steps of one run OUTQ only grows at its tail and INQ only loses values from its head. -/
def Obligations.OutputsGrowAtTailInputsShrinkAtHead : Prop :=
  ∀ (n : Nat) (s t : State), s.pending = [] → RunsTo n s t → s.outq <+: t.outq ∧ t.inq <:+ s.inq

/-- R34: the core never reads OUTQ: outputs put before those of a state change nothing else in what an instruction does. -/
def Obligations.CoreNeverReadsOutputs : Prop :=
  ∀ (i : Instr) (s t : State) (o : List Word), exec i s = .next t →
    exec i { s with outq := o ++ s.outq } = .next { t with outq := o ++ t.outq }

/-- R142: the relative base applies only to operands of mode 2: an instruction without one, ARB apart, does the same whatever RB
holds, and leaves it. -/
def Obligations.RelativeBaseMattersOnlyToModeTwo : Prop :=
  ∀ (i : Instr) (s t : State) (r : Word), Mode.relative ∉ i.modes → (∀ a, i ≠ .arb a) → exec i s = .next t →
    exec i { s with rb := r } = .next { t with rb := r }

/-- R68, R119: a sum that ADD stores into the cell after its own last one is what the next step fetches and executes. -/
def Obligations.StoreSeenByNextFetch : Prop :=
  ∀ (s : State) (a b dst : Mode) (x y : Word) (i : Instr), s.Inv → s.busy = true →
    decode (s.mem.read s.ip) = .ok (.add a b dst) → Operand s 1 a x → Operand s 2 b y → EffAddr s 3 dst (s.ip + 4) →
    decode (wrap64 (x.toInt + y.toInt)) = .ok i →
    ∃ t, step s = .next t ∧ t.ip = s.ip + 4 ∧ step t = delivered (exec i t)

/-- Log entries 10 and 11, a choice of the model's: a table word placed by `withFetchWord` is what the next step executes. -/
def Obligations.PlacedTableWordRunsNext : Prop :=
  ∀ (s : State) (nbits w : Nat) (i : Instr), s.Inv → decodeTableWord nbits w = some i →
    step (s.withFetchWord nbits w) = delivered (exec i (s.withFetchWord nbits w))

/-! ## The host -/

/-- R210: the step that ends a run answers the host once, with Progress, Halted or Faulted by ST; no other step of the core answers
it. What outputs a Faulted result carries is left out (the spec's decision D21). The list of calls and the host's log are the
model's own, log entry 6. -/
def Obligations.RunReturnsOneResultByStatus : Prop :=
  ∀ s t : State, s.Inv → s.busy = true → step s = .next t →
    (t.busy = true → t.replies = s.replies) ∧
    (t.busy = false →
      (t.st = .awaitingInput ∧ t.replies = s.replies ++ [.progress t.outq]) ∨
      (t.st = .halted ∧ t.replies = s.replies ++ [.halted t.outq]) ∨
      (t.st = .faulted ∧ ∃ k o, t.fk = some k ∧ t.replies = s.replies ++ [.faulted k o]))

/-- R213: the host makes no move while BUSY = 1: none of its transactions to come is performed, and what it was answered before stays.
R6: ADDR_MAX is fixed: no step, of the core or of the host, changes it. Both fields are the model's own, log entries 2 and 6. -/
def Obligations.HostMakesNoMoveDuringRun : Prop :=
  ∀ s t : State, step s = .next t →
    t.addrMax = s.addrMax ∧ s.replies <+: t.replies ∧ (s.busy = true → t.pending = s.pending) ∧
    (s.busy = false → t.pending = s.pending.tail)

/-- R110: while BUSY = 0 and the host has no transaction to make, nothing changes, however many steps go by. That the idle machine
still takes steps, to itself, is the model's inference, log entry 7. -/
def Obligations.IdleMachineDoesNothing : Prop :=
  ∀ (n : Nat) (s t : State), s.busy = false → s.pending = [] → RunsTo n s t → t = s

/-- R270: the host's reset gives every piece of state its value, whatever the machine was before. The list of calls and the host's
log are the model's own, log entry 6. -/
def Obligations.HostResetConstructsMachine : Prop :=
  ∀ (s : State) (p : List Word) (rest : List HostCall), s.busy = false → s.pending = .reset p :: rest →
    p.length ≤ s.addrMax + 1 →
    ∃ t, step s = .next t ∧ t.ip = 0 ∧ t.rb = 0 ∧ t.st = .running ∧ t.fk = none ∧ t.busy = false ∧ t.inq = [] ∧
      t.outq = [] ∧ t.addrMax = s.addrMax ∧ t.pending = rest ∧ t.replies = s.replies ∧ t.mem.wf = true ∧
      ∀ c, t.mem.read c = p.getD c 0

/-- R63, log entry 9, a choice of the model's: a reset with a program longer than the memory stops by name. -/
def Obligations.HostResetWithTooLongProgramStops : Prop :=
  ∀ (s : State) (p : List Word) (rest : List HostCall), s.busy = false → s.pending = .reset p :: rest →
    s.addrMax + 1 < p.length → step s = .refused .programTooLong

/-- R206, R252 (the spec's decision D16): a poke in range writes the one cell and nothing else; one out of range changes nothing and
is answered with BadPokeIndex. The list of calls and the host's log are the model's own, log entry 6. -/
def Obligations.HostPokeWritesOneCell : Prop :=
  ∀ (s : State) (a : Int) (v : Word) (rest : List HostCall), s.mem.wf = true → s.busy = false →
    s.pending = .poke a v :: rest →
    (∀ n : Nat, a = (n : Int) → n ≤ s.addrMax →
      ∃ t, step s = .next t ∧ (∀ c, t.mem.read c = if c = n then v else s.mem.read c) ∧
        { t with mem := s.mem, pending := s.pending } = s) ∧
    (a < 0 ∨ (s.addrMax : Int) < a →
      step s = .next { s with pending := rest, replies := s.replies ++ [.badPokeIndex] })

/-- R208: the beginning of a run replaces INQ, empties OUTQ, and sets ST and BUSY; IP, RB, M and FK are not touched. That it takes
the call off the list of the host's calls to come is the model's choice, log entry 6. -/
def Obligations.HostRunBegins : Prop :=
  ∀ (s : State) (inputs : List Word) (rest : List HostCall), s.busy = false → s.pending = .run inputs :: rest →
    s.st = .running ∨ s.st = .awaitingInput →
    step s = .next { s with pending := rest, inq := inputs, outq := [], st := .running, busy := true }

/-- R211, R212, R252 (the spec's decisions D10 and D11): a run after halt or after a fault is refused: it is answered with the host
error and changes nothing. The list of calls and the host's log are the model's own, log entry 6. -/
def Obligations.HostRunRefusedAfterHaltOrFault : Prop :=
  ∀ (s : State) (inputs : List Word) (rest : List HostCall), s.busy = false → s.pending = .run inputs :: rest →
    (s.st = .halted → step s = .next { s with pending := rest, replies := s.replies ++ [.runAfterHalt] }) ∧
    (s.st = .faulted → step s = .next { s with pending := rest, replies := s.replies ++ [.runAfterFault] })

/-- R215: if a run with the inputs `in1` ends waiting for input and a run with `in2` then ends, one run with all of them ends in the
same state, and its outputs are those of the two, one after the other. Where the second run ends in a fault the clause on outputs
speaks of outputs that the spec's decision D21 (R210, log entry 15) tells claims not to use: that a faulted run keeps them is the
spec's choice. -/
def Obligations.SplitInputsRunLikeOneRun : Prop :=
  ∀ (s t u : State) (m n : Nat) (in1 in2 : List Word), s.busy = false →
    RunsTo m { s with pending := [.run in1] } t → t.pending = [] → t.busy = false → t.st = .awaitingInput →
    RunsTo n { t with pending := [.run in2] } u → u.pending = [] → u.busy = false →
    ∃ k v, RunsTo k { s with pending := [.run (in1 ++ in2)] } v ∧ v.pending = [] ∧ v.busy = false ∧ v.ip = u.ip ∧
      v.rb = u.rb ∧ v.mem = u.mem ∧ v.st = u.st ∧ v.fk = u.fk ∧ v.inq = u.inq ∧ v.outq = t.outq ++ u.outq
end

