-- ==== Sys2Proof/Laws/Memory.lean ====
section
/-! SUPPORT. The memory: reads after writes and loads, and every operation keeps the canonical form. -/

namespace Sys2Proof.Machine

/-! ## Small laws of the definitions -/

@[simp] theorem Memory.read_nil (a : Nat) : Memory.read [] a = 0 := rfl

@[simp] theorem Memory.read_entry (b : Nat) (u : Word) (rest : Memory) (a : Nat) :
    Memory.read ((b, u) :: rest) a = if a = b then u else Memory.read rest a := rfl

@[simp] theorem Memory.above_nil (k : Nat) : Memory.above k [] = true := rfl

@[simp] theorem Memory.above_entry (k b : Nat) (u : Word) (rest : Memory) :
    Memory.above k ((b, u) :: rest) = true ↔ k < b ∧ Memory.above k rest = true := by
  simp [Memory.above]

@[simp] theorem Memory.within_nil (k : Nat) : Memory.within k [] = true := rfl

@[simp] theorem Memory.within_entry (k b : Nat) (u : Word) (rest : Memory) :
    Memory.within k ((b, u) :: rest) = true ↔ b ≤ k ∧ Memory.within k rest = true := by
  simp [Memory.within]

@[simp] theorem Memory.wf_nil : Memory.wf [] = true := rfl

@[simp] theorem Memory.wf_entry (a : Nat) (v : Word) (rest : Memory) :
    Memory.wf ((a, v) :: rest) = true ↔ v ≠ 0 ∧ Memory.above a rest = true ∧ Memory.wf rest = true := by
  simp [Memory.wf, and_assoc]

theorem Memory.above_mono {j k : Nat} (h : j ≤ k) {m : Memory} (hm : m.above k = true) : m.above j = true := by
  induction m with
  | nil => rfl
  | cons c rest ih =>
    obtain ⟨b, u⟩ := c
    rw [Memory.above_entry] at *
    exact ⟨by omega, ih hm.2⟩

/-- A cell at or below every listed index is unlisted. -/
theorem Memory.read_of_above {k : Nat} {m : Memory} (hm : m.above k = true) {a : Nat} (h : a ≤ k) : m.read a = 0 := by
  induction m with
  | nil => rfl
  | cons c rest ih =>
    obtain ⟨b, u⟩ := c
    rw [Memory.above_entry] at hm
    rw [Memory.read_entry, if_neg (by omega), ih hm.2]

/-! ## Listing a cell before others -/

theorem Memory.cons_above {k a : Nat} (v : Word) {rest : Memory} (h : k < a) (hr : rest.above k = true) :
    (Memory.cons a v rest).above k = true := by
  unfold Memory.cons
  split
  · exact hr
  · exact (Memory.above_entry ..).2 ⟨h, hr⟩

theorem Memory.cons_within {max a : Nat} (v : Word) {rest : Memory} (h : a ≤ max) (hr : rest.within max = true) :
    (Memory.cons a v rest).within max = true := by
  unfold Memory.cons
  split
  · exact hr
  · exact (Memory.within_entry ..).2 ⟨h, hr⟩

theorem Memory.cons_wf {a : Nat} (v : Word) {rest : Memory} (ha : rest.above a = true) (hr : rest.wf = true) :
    (Memory.cons a v rest).wf = true := by
  unfold Memory.cons
  split
  · exact hr
  · next hv => exact (Memory.wf_entry ..).2 ⟨hv, ha, hr⟩

theorem Memory.read_cons {a : Nat} (v : Word) {rest : Memory} (ha : rest.above a = true) (x : Nat) :
    (Memory.cons a v rest).read x = if x = a then v else rest.read x := by
  unfold Memory.cons
  split
  · next hv =>
    split
    · next hx => rw [hx, hv, Memory.read_of_above ha (le_refl a)]
    · rfl
  · rfl

/-! ## Writing -/

theorem Memory.write_above {k a : Nat} (v : Word) {m : Memory} (h : k < a) (hm : m.above k = true) :
    (m.write a v).above k = true := by
  induction m with
  | nil => exact Memory.cons_above v h rfl
  | cons c rest ih =>
    obtain ⟨b, u⟩ := c
    have hm' := (Memory.above_entry ..).1 hm
    unfold Memory.write
    split
    · exact Memory.cons_above v h hm
    · split
      · exact Memory.cons_above v h hm'.2
      · exact (Memory.above_entry ..).2 ⟨hm'.1, ih hm'.2⟩

/-- A write keeps the canonical form. -/
theorem Memory.write_wf (a : Nat) (v : Word) {m : Memory} (hm : m.wf = true) : (m.write a v).wf = true := by
  induction m with
  | nil => exact Memory.cons_wf v rfl rfl
  | cons c rest ih =>
    obtain ⟨b, u⟩ := c
    obtain ⟨hu, hb, hr⟩ := (Memory.wf_entry ..).1 hm
    unfold Memory.write
    split
    · next hlt =>
      exact Memory.cons_wf v ((Memory.above_entry ..).2 ⟨hlt, Memory.above_mono (by omega) hb⟩) hm
    · split
      · next he => exact Memory.cons_wf v (he ▸ hb) hr
      · exact (Memory.wf_entry ..).2 ⟨hu, Memory.write_above v (by omega) hb, ih hr⟩

/-- A write to an existing cell lists only existing cells. -/
theorem Memory.write_within {max a : Nat} (v : Word) {m : Memory} (h : a ≤ max) (hm : m.within max = true) :
    (m.write a v).within max = true := by
  induction m with
  | nil => exact Memory.cons_within v h rfl
  | cons c rest ih =>
    obtain ⟨b, u⟩ := c
    have hm' := (Memory.within_entry ..).1 hm
    unfold Memory.write
    split
    · exact Memory.cons_within v h hm
    · split
      · exact Memory.cons_within v h hm'.2
      · exact (Memory.within_entry ..).2 ⟨hm'.1, ih hm'.2⟩

/-- Reading after a write, in a canonical memory (R53, R54). -/
theorem Memory.read_write {m : Memory} (hm : m.wf = true) (a : Nat) (v : Word) (x : Nat) :
    (m.write a v).read x = if x = a then v else m.read x := by
  induction m with
  | nil => exact Memory.read_cons v rfl x
  | cons c rest ih =>
    obtain ⟨b, u⟩ := c
    obtain ⟨-, hb, hr⟩ := (Memory.wf_entry ..).1 hm
    unfold Memory.write
    split
    · next hlt =>
      exact Memory.read_cons v ((Memory.above_entry ..).2 ⟨hlt, Memory.above_mono (by omega) hb⟩) x
    · split
      · next he =>
        subst he
        rw [Memory.read_cons v hb, Memory.read_entry]
        split <;> rfl
      · next hne =>
        rw [Memory.read_entry, ih hr, Memory.read_entry]
        by_cases hx : x = b
        · rw [if_pos hx, if_pos hx, if_neg (by omega)]
        · rw [if_neg hx, if_neg hx]

@[simp] theorem Memory.read_write_same {m : Memory} (hm : m.wf = true) (a : Nat) (v : Word) :
    (m.write a v).read a = v := by
  rw [Memory.read_write hm, if_pos rfl]

theorem Memory.read_cons_other {a x : Nat} (v : Word) (rest : Memory) (h : x ≠ a) :
    (Memory.cons a v rest).read x = rest.read x := by
  unfold Memory.cons
  split
  · rfl
  · rw [Memory.read_entry, if_neg h]

/-- A write leaves every other cell alone, in every memory (R54). -/
theorem Memory.read_write_other (m : Memory) {a x : Nat} (v : Word) (h : x ≠ a) : (m.write a v).read x = m.read x := by
  induction m with
  | nil => exact Memory.read_cons_other v [] h
  | cons c rest ih =>
    obtain ⟨b, u⟩ := c
    unfold Memory.write
    split
    · exact Memory.read_cons_other v _ h
    · split
      · next he => rw [Memory.read_cons_other v _ h, Memory.read_entry, if_neg (by omega)]
      · rw [Memory.read_entry, Memory.read_entry, ih]

/-! ## Loading a program -/

theorem Memory.loadFrom_above (k j : Nat) (p : List Word) (h : j < k) : (Memory.loadFrom k p).above j = true := by
  induction p generalizing k with
  | nil => rfl
  | cons v vs ih => exact Memory.cons_above v h (ih (k + 1) (by omega))

theorem Memory.loadFrom_wf (k : Nat) (p : List Word) : (Memory.loadFrom k p).wf = true := by
  induction p generalizing k with
  | nil => rfl
  | cons v vs ih => exact Memory.cons_wf v (Memory.loadFrom_above (k + 1) k vs (by omega)) (ih (k + 1))

theorem Memory.loadFrom_within {max : Nat} (k : Nat) (p : List Word) (h : k + p.length ≤ max + 1) :
    (Memory.loadFrom k p).within max = true := by
  induction p generalizing k with
  | nil => rfl
  | cons v vs ih =>
    rw [List.length_cons] at h
    exact Memory.cons_within v (by omega) (ih (k + 1) (by omega))

theorem Memory.read_loadFrom (k : Nat) (p : List Word) (x : Nat) :
    (Memory.loadFrom k p).read (k + x) = p.getD x 0 := by
  induction p generalizing k x with
  | nil => rfl
  | cons v vs ih =>
    unfold Memory.loadFrom
    rw [Memory.read_cons v (Memory.loadFrom_above (k + 1) k vs (by omega))]
    cases x with
    | zero => simp
    | succ x => rw [if_neg (by omega), show k + (x + 1) = k + 1 + x by omega, ih]; rfl

/-- The initial contents: cell i holds p_i, every other cell 0 (R63). -/
theorem Memory.read_load (p : List Word) (x : Nat) : (Memory.load p).read x = p.getD x 0 := by
  have h := Memory.read_loadFrom 0 p x
  rwa [Nat.zero_add] at h

theorem Memory.load_wf (p : List Word) : (Memory.load p).wf = true := Memory.loadFrom_wf 0 p

theorem Memory.load_within {max : Nat} (p : List Word) (h : p.length ≤ max + 1) : (Memory.load p).within max = true :=
  Memory.loadFrom_within 0 p (by omega)

end Sys2Proof.Machine
end

