-- ==== Sys2Proof/Laws/Operands.lean ====
section
/-! SUPPORT. What the resolver and the index check answer, in the relations of Safety.lean: one lemma for each answer. -/

namespace Sys2Proof.Machine

/-! ## Sequencing of checks -/

theorem except_bind_eq_ok {ε α β : Type} {x : Except ε α} {f : α → Except ε β} {b : β} :
    (x >>= f) = .ok b ↔ ∃ a, x = .ok a ∧ f a = .ok b := by
  cases x <;> simp [bind, Except.bind]

theorem except_bind_eq_error {ε α β : Type} {x : Except ε α} {f : α → Except ε β} {e : ε} :
    (x >>= f) = .error e ↔ x = .error e ∨ ∃ a, x = .ok a ∧ f a = .error e := by
  cases x <;> simp [bind, Except.bind]

theorem except_pure_eq_ok {ε α : Type} {a b : α} : (pure a : Except ε α) = .ok b ↔ a = b := by
  simp [pure, Except.pure]

theorem except_pure_ne_error {ε α : Type} {a : α} {e : ε} : (pure a : Except ε α) ≠ .error e := by
  simp [pure, Except.pure]

@[simp] theorem except_ok_bind {ε α β : Type} (a : α) (f : α → Except ε β) : ((.ok a : Except ε α) >>= f) = f a := rfl

@[simp] theorem except_error_bind {ε α β : Type} (e : ε) (f : α → Except ε β) :
    ((.error e : Except ε α) >>= f) = .error e := rfl

@[simp] theorem except_pure_ok {ε α : Type} (a : α) : (pure a : Except ε α) = .ok a := rfl

/-! ## `checkAddr` -/

/-- `CheckAddr` answers an index exactly when it is in range, and then the same index (R10, R140). -/
theorem checkAddr_ok {max : Nat} {z : Int} {a : Nat} : checkAddr max z = .ok a ↔ z = (a : Int) ∧ a ≤ max := by
  unfold checkAddr
  split
  · constructor
    · intro h; cases h
    · omega
  · split
    · constructor
      · intro h; cases h
      · omega
    · constructor
      · intro h; cases h; omega
      · intro h; congr 1; omega

/-- `CheckAddr` raises exactly the fault of an index out of range (R56, R57). -/
theorem checkAddr_error {s : State} {z : Int} {k : FaultKind} :
    checkAddr s.addrMax z = .error k ↔ IndexFault s z k := by
  unfold checkAddr IndexFault
  split
  · constructor
    · intro h; cases h; exact .inl ⟨‹_›, rfl⟩
    · rintro (⟨-, rfl⟩ | ⟨h, -⟩)
      · rfl
      · omega
  · split
    · constructor
      · intro h; cases h; exact .inr ⟨‹_›, rfl⟩
      · rintro (⟨h, -⟩ | ⟨-, rfl⟩)
        · omega
        · rfl
    · constructor
      · intro h; cases h
      · rintro (⟨h, -⟩ | ⟨h, -⟩) <;> omega

theorem nextIp_ok {s : State} {len a : Nat} : nextIp s len = .ok a ↔ a = s.ip + len ∧ s.ip + len ≤ s.addrMax := by
  unfold nextIp
  rw [checkAddr_ok]
  omega

/-- The next-IP check of a fixed advance raises AddressLimit only (R117). -/
theorem nextIp_error {s : State} {len : Nat} {k : FaultKind} :
    nextIp s len = .error k ↔ s.addrMax < s.ip + len ∧ k = .addressLimit := by
  unfold nextIp
  rw [checkAddr_error, IndexFault]
  constructor
  · rintro (⟨h, -⟩ | ⟨h, rfl⟩)
    · omega
    · exact ⟨by omega, rfl⟩
  · rintro ⟨h, rfl⟩
    exact .inr ⟨by omega, rfl⟩

/-! ## The resolver -/

theorem fetchParam_ok {s : State} {i : Nat} {p : Word} : fetchParam s i = .ok p ↔ ParamIs s i p := by
  unfold fetchParam ParamIs
  rw [except_bind_eq_ok]
  constructor
  · rintro ⟨a, ha, hp⟩
    rw [checkAddr_ok] at ha
    rw [except_pure_eq_ok] at hp
    obtain ⟨hz, hle⟩ := ha
    have : a = s.ip + i := by omega
    subst this
    exact ⟨hle, hp⟩
  · rintro ⟨hle, hp⟩
    exact ⟨s.ip + i, checkAddr_ok.2 ⟨by omega, hle⟩, except_pure_eq_ok.2 hp⟩

theorem fetchParam_error {s : State} {i : Nat} {k : FaultKind} :
    fetchParam s i = .error k ↔ IndexFault s ((s.ip : Int) + i) k := by
  unfold fetchParam
  rw [except_bind_eq_error, checkAddr_error]
  constructor
  · rintro (h | ⟨_, -, h⟩)
    · exact h
    · exact absurd h except_pure_ne_error
  · exact .inl

theorem ParamIs.unique {s : State} {i : Nat} {p q : Word} (hp : ParamIs s i p) (hq : ParamIs s i q) : p = q :=
  hp.2.symm.trans hq.2

theorem EffAddr.unique {s : State} {i : Nat} {m : Mode} {a b : Nat} (ha : EffAddr s i m a) (hb : EffAddr s i m b) :
    a = b := by
  obtain ⟨p, hp, hpa, -⟩ := ha
  obtain ⟨q, hq, hqb, -⟩ := hb
  rw [hp.unique hq, hqb] at hpa
  have := Option.some.inj hpa
  omega

/-- `ResolveRead` answers exactly the operand of R143. -/
theorem resolveRead_ok {s : State} {i : Nat} {m : Mode} {v : Word} : resolveRead s i m = .ok v ↔ Operand s i m v := by
  unfold resolveRead Operand EffAddr
  rw [except_bind_eq_ok]
  simp only [fetchParam_ok]
  cases m with
  | position =>
    simp only [except_bind_eq_ok, except_pure_eq_ok, checkAddr_ok, indexOf, Option.some.injEq, reduceCtorEq,
      false_and, false_or]
    exact ⟨fun ⟨p, hp, ea, he, hv⟩ => ⟨ea, ⟨p, hp, he⟩, hv⟩, fun ⟨ea, ⟨p, hp, he⟩, hv⟩ => ⟨p, hp, ea, he, hv⟩⟩
  | immediate =>
    simp only [except_pure_eq_ok, indexOf, reduceCtorEq, false_and, and_false, exists_false, or_false, true_and]
    exact ⟨fun ⟨_, hp, hv⟩ => hv ▸ hp, fun hp => ⟨v, hp, rfl⟩⟩
  | relative =>
    simp only [except_bind_eq_ok, except_pure_eq_ok, checkAddr_ok, indexOf, Option.some.injEq, reduceCtorEq,
      false_and, false_or]
    exact ⟨fun ⟨p, hp, ea, he, hv⟩ => ⟨ea, ⟨p, hp, he⟩, hv⟩, fun ⟨ea, ⟨p, hp, he⟩, hv⟩ => ⟨p, hp, ea, he, hv⟩⟩

/-- `ResolveRead` raises exactly the fault of its slot. -/
theorem resolveRead_error {s : State} {i : Nat} {m : Mode} {k : FaultKind} :
    resolveRead s i m = .error k ↔ SlotFault s i m k := by
  unfold resolveRead SlotFault
  rw [except_bind_eq_error]
  simp only [fetchParam_ok, fetchParam_error]
  cases m with
  | position =>
    simp only [except_bind_eq_error, except_pure_ne_error, checkAddr_error, indexOf, and_false, exists_false, or_false,
      Option.some.injEq, exists_and_left, exists_eq_left']
  | immediate =>
    simp only [except_pure_ne_error, indexOf, reduceCtorEq, false_and, and_false, exists_false, or_false]
  | relative =>
    simp only [except_bind_eq_error, except_pure_ne_error, checkAddr_error, indexOf, and_false, exists_false, or_false,
      Option.some.injEq, exists_and_left, exists_eq_left']

/-- `ResolveWrite` answers exactly the effective address of R143. -/
theorem resolveWrite_ok {s : State} {i : Nat} {m : Mode} {ea : Nat} : resolveWrite s i m = .ok ea ↔ EffAddr s i m ea := by
  unfold resolveWrite EffAddr
  cases m with
  | position => simp only [except_bind_eq_ok, fetchParam_ok, checkAddr_ok, indexOf, Option.some.injEq]
  | immediate => simp [indexOf]
  | relative => simp only [except_bind_eq_ok, fetchParam_ok, checkAddr_ok, indexOf, Option.some.injEq]

/-- `ResolveWrite` of a writable mode raises exactly the fault of its slot. -/
theorem resolveWrite_error {s : State} {i : Nat} {m : Mode} {k : FaultKind} (hm : m ≠ .immediate) :
    resolveWrite s i m = .error k ↔ SlotFault s i m k := by
  unfold resolveWrite SlotFault
  cases m with
  | position =>
    simp only [except_bind_eq_error, fetchParam_ok, fetchParam_error, checkAddr_error, indexOf, Option.some.injEq,
      exists_and_left, exists_eq_left']
  | immediate => exact absurd rfl hm
  | relative =>
    simp only [except_bind_eq_error, fetchParam_ok, fetchParam_error, checkAddr_error, indexOf, Option.some.injEq,
      exists_and_left, exists_eq_left']

end Sys2Proof.Machine
end

