-- ==== Sys2Proof/Laws/State.lean ====
section
/-! SUPPORT. One lemma per field per update of State, true by rfl, so that no proof unfolds a record update. -/

namespace Sys2Proof.Machine

/-! ## `setIp` -/

@[simp] theorem State.setIp_addrMax (s : State) (a : Nat) : (s.setIp a).addrMax = s.addrMax := rfl
@[simp] theorem State.setIp_ip (s : State) (a : Nat) : (s.setIp a).ip = a := rfl
@[simp] theorem State.setIp_rb (s : State) (a : Nat) : (s.setIp a).rb = s.rb := rfl
@[simp] theorem State.setIp_st (s : State) (a : Nat) : (s.setIp a).st = s.st := rfl
@[simp] theorem State.setIp_fk (s : State) (a : Nat) : (s.setIp a).fk = s.fk := rfl
@[simp] theorem State.setIp_busy (s : State) (a : Nat) : (s.setIp a).busy = s.busy := rfl
@[simp] theorem State.setIp_mem (s : State) (a : Nat) : (s.setIp a).mem = s.mem := rfl
@[simp] theorem State.setIp_inq (s : State) (a : Nat) : (s.setIp a).inq = s.inq := rfl
@[simp] theorem State.setIp_outq (s : State) (a : Nat) : (s.setIp a).outq = s.outq := rfl
@[simp] theorem State.setIp_pending (s : State) (a : Nat) : (s.setIp a).pending = s.pending := rfl
@[simp] theorem State.setIp_replies (s : State) (a : Nat) : (s.setIp a).replies = s.replies := rfl

/-! ## `setRb` -/

@[simp] theorem State.setRb_addrMax (s : State) (v : Word) : (s.setRb v).addrMax = s.addrMax := rfl
@[simp] theorem State.setRb_ip (s : State) (v : Word) : (s.setRb v).ip = s.ip := rfl
@[simp] theorem State.setRb_rb (s : State) (v : Word) : (s.setRb v).rb = v := rfl
@[simp] theorem State.setRb_st (s : State) (v : Word) : (s.setRb v).st = s.st := rfl
@[simp] theorem State.setRb_fk (s : State) (v : Word) : (s.setRb v).fk = s.fk := rfl
@[simp] theorem State.setRb_busy (s : State) (v : Word) : (s.setRb v).busy = s.busy := rfl
@[simp] theorem State.setRb_mem (s : State) (v : Word) : (s.setRb v).mem = s.mem := rfl
@[simp] theorem State.setRb_inq (s : State) (v : Word) : (s.setRb v).inq = s.inq := rfl
@[simp] theorem State.setRb_outq (s : State) (v : Word) : (s.setRb v).outq = s.outq := rfl
@[simp] theorem State.setRb_pending (s : State) (v : Word) : (s.setRb v).pending = s.pending := rfl
@[simp] theorem State.setRb_replies (s : State) (v : Word) : (s.setRb v).replies = s.replies := rfl

/-! ## `writeCell` -/

@[simp] theorem State.writeCell_addrMax (s : State) (a : Nat) (v : Word) : (s.writeCell a v).addrMax = s.addrMax := rfl
@[simp] theorem State.writeCell_ip (s : State) (a : Nat) (v : Word) : (s.writeCell a v).ip = s.ip := rfl
@[simp] theorem State.writeCell_rb (s : State) (a : Nat) (v : Word) : (s.writeCell a v).rb = s.rb := rfl
@[simp] theorem State.writeCell_st (s : State) (a : Nat) (v : Word) : (s.writeCell a v).st = s.st := rfl
@[simp] theorem State.writeCell_fk (s : State) (a : Nat) (v : Word) : (s.writeCell a v).fk = s.fk := rfl
@[simp] theorem State.writeCell_busy (s : State) (a : Nat) (v : Word) : (s.writeCell a v).busy = s.busy := rfl
@[simp] theorem State.writeCell_mem (s : State) (a : Nat) (v : Word) : (s.writeCell a v).mem = s.mem.write a v := rfl
@[simp] theorem State.writeCell_inq (s : State) (a : Nat) (v : Word) : (s.writeCell a v).inq = s.inq := rfl
@[simp] theorem State.writeCell_outq (s : State) (a : Nat) (v : Word) : (s.writeCell a v).outq = s.outq := rfl
@[simp] theorem State.writeCell_pending (s : State) (a : Nat) (v : Word) : (s.writeCell a v).pending = s.pending := rfl
@[simp] theorem State.writeCell_replies (s : State) (a : Nat) (v : Word) : (s.writeCell a v).replies = s.replies := rfl

/-! ## `pushOutput` -/

@[simp] theorem State.pushOutput_addrMax (s : State) (v : Word) : (s.pushOutput v).addrMax = s.addrMax := rfl
@[simp] theorem State.pushOutput_ip (s : State) (v : Word) : (s.pushOutput v).ip = s.ip := rfl
@[simp] theorem State.pushOutput_rb (s : State) (v : Word) : (s.pushOutput v).rb = s.rb := rfl
@[simp] theorem State.pushOutput_st (s : State) (v : Word) : (s.pushOutput v).st = s.st := rfl
@[simp] theorem State.pushOutput_fk (s : State) (v : Word) : (s.pushOutput v).fk = s.fk := rfl
@[simp] theorem State.pushOutput_busy (s : State) (v : Word) : (s.pushOutput v).busy = s.busy := rfl
@[simp] theorem State.pushOutput_mem (s : State) (v : Word) : (s.pushOutput v).mem = s.mem := rfl
@[simp] theorem State.pushOutput_inq (s : State) (v : Word) : (s.pushOutput v).inq = s.inq := rfl
@[simp] theorem State.pushOutput_outq (s : State) (v : Word) : (s.pushOutput v).outq = s.outq ++ [v] := rfl
@[simp] theorem State.pushOutput_pending (s : State) (v : Word) : (s.pushOutput v).pending = s.pending := rfl
@[simp] theorem State.pushOutput_replies (s : State) (v : Word) : (s.pushOutput v).replies = s.replies := rfl

/-! ## `dropInput` -/

@[simp] theorem State.dropInput_addrMax (s : State) (rest : List Word) : (s.dropInput rest).addrMax = s.addrMax := rfl
@[simp] theorem State.dropInput_ip (s : State) (rest : List Word) : (s.dropInput rest).ip = s.ip := rfl
@[simp] theorem State.dropInput_rb (s : State) (rest : List Word) : (s.dropInput rest).rb = s.rb := rfl
@[simp] theorem State.dropInput_st (s : State) (rest : List Word) : (s.dropInput rest).st = s.st := rfl
@[simp] theorem State.dropInput_fk (s : State) (rest : List Word) : (s.dropInput rest).fk = s.fk := rfl
@[simp] theorem State.dropInput_busy (s : State) (rest : List Word) : (s.dropInput rest).busy = s.busy := rfl
@[simp] theorem State.dropInput_mem (s : State) (rest : List Word) : (s.dropInput rest).mem = s.mem := rfl
@[simp] theorem State.dropInput_inq (s : State) (rest : List Word) : (s.dropInput rest).inq = rest := rfl
@[simp] theorem State.dropInput_outq (s : State) (rest : List Word) : (s.dropInput rest).outq = s.outq := rfl
@[simp] theorem State.dropInput_pending (s : State) (rest : List Word) : (s.dropInput rest).pending = s.pending := rfl
@[simp] theorem State.dropInput_replies (s : State) (rest : List Word) : (s.dropInput rest).replies = s.replies := rfl

/-! ## `raise` -/

@[simp] theorem State.raise_addrMax (s : State) (k : FaultKind) : (s.raise k).addrMax = s.addrMax := rfl
@[simp] theorem State.raise_ip (s : State) (k : FaultKind) : (s.raise k).ip = s.ip := rfl
@[simp] theorem State.raise_rb (s : State) (k : FaultKind) : (s.raise k).rb = s.rb := rfl
@[simp] theorem State.raise_st (s : State) (k : FaultKind) : (s.raise k).st = .faulted := rfl
@[simp] theorem State.raise_fk (s : State) (k : FaultKind) : (s.raise k).fk = some k := rfl
@[simp] theorem State.raise_busy (s : State) (k : FaultKind) : (s.raise k).busy = false := rfl
@[simp] theorem State.raise_mem (s : State) (k : FaultKind) : (s.raise k).mem = s.mem := rfl
@[simp] theorem State.raise_inq (s : State) (k : FaultKind) : (s.raise k).inq = s.inq := rfl
@[simp] theorem State.raise_outq (s : State) (k : FaultKind) : (s.raise k).outq = s.outq := rfl
@[simp] theorem State.raise_pending (s : State) (k : FaultKind) : (s.raise k).pending = s.pending := rfl
@[simp] theorem State.raise_replies (s : State) (k : FaultKind) : (s.raise k).replies = s.replies := rfl

/-! ## `suspend` -/

@[simp] theorem State.suspend_addrMax (s : State) : (s.suspend).addrMax = s.addrMax := rfl
@[simp] theorem State.suspend_ip (s : State) : (s.suspend).ip = s.ip := rfl
@[simp] theorem State.suspend_rb (s : State) : (s.suspend).rb = s.rb := rfl
@[simp] theorem State.suspend_st (s : State) : (s.suspend).st = .awaitingInput := rfl
@[simp] theorem State.suspend_fk (s : State) : (s.suspend).fk = s.fk := rfl
@[simp] theorem State.suspend_busy (s : State) : (s.suspend).busy = false := rfl
@[simp] theorem State.suspend_mem (s : State) : (s.suspend).mem = s.mem := rfl
@[simp] theorem State.suspend_inq (s : State) : (s.suspend).inq = s.inq := rfl
@[simp] theorem State.suspend_outq (s : State) : (s.suspend).outq = s.outq := rfl
@[simp] theorem State.suspend_pending (s : State) : (s.suspend).pending = s.pending := rfl
@[simp] theorem State.suspend_replies (s : State) : (s.suspend).replies = s.replies := rfl

/-! ## `halt` -/

@[simp] theorem State.halt_addrMax (s : State) : (s.halt).addrMax = s.addrMax := rfl
@[simp] theorem State.halt_ip (s : State) : (s.halt).ip = s.ip := rfl
@[simp] theorem State.halt_rb (s : State) : (s.halt).rb = s.rb := rfl
@[simp] theorem State.halt_st (s : State) : (s.halt).st = .halted := rfl
@[simp] theorem State.halt_fk (s : State) : (s.halt).fk = s.fk := rfl
@[simp] theorem State.halt_busy (s : State) : (s.halt).busy = false := rfl
@[simp] theorem State.halt_mem (s : State) : (s.halt).mem = s.mem := rfl
@[simp] theorem State.halt_inq (s : State) : (s.halt).inq = s.inq := rfl
@[simp] theorem State.halt_outq (s : State) : (s.halt).outq = s.outq := rfl
@[simp] theorem State.halt_pending (s : State) : (s.halt).pending = s.pending := rfl
@[simp] theorem State.halt_replies (s : State) : (s.halt).replies = s.replies := rfl

/-! ## `reply` -/

@[simp] theorem State.reply_addrMax (s : State) (r : HostReply) : (s.reply r).addrMax = s.addrMax := rfl
@[simp] theorem State.reply_ip (s : State) (r : HostReply) : (s.reply r).ip = s.ip := rfl
@[simp] theorem State.reply_rb (s : State) (r : HostReply) : (s.reply r).rb = s.rb := rfl
@[simp] theorem State.reply_st (s : State) (r : HostReply) : (s.reply r).st = s.st := rfl
@[simp] theorem State.reply_fk (s : State) (r : HostReply) : (s.reply r).fk = s.fk := rfl
@[simp] theorem State.reply_busy (s : State) (r : HostReply) : (s.reply r).busy = s.busy := rfl
@[simp] theorem State.reply_mem (s : State) (r : HostReply) : (s.reply r).mem = s.mem := rfl
@[simp] theorem State.reply_inq (s : State) (r : HostReply) : (s.reply r).inq = s.inq := rfl
@[simp] theorem State.reply_outq (s : State) (r : HostReply) : (s.reply r).outq = s.outq := rfl
@[simp] theorem State.reply_pending (s : State) (r : HostReply) : (s.reply r).pending = s.pending := rfl
@[simp] theorem State.reply_replies (s : State) (r : HostReply) : (s.reply r).replies = s.replies ++ [r] := rfl

/-! ## `beginRun` -/

@[simp] theorem State.beginRun_addrMax (s : State) (inputs : List Word) : (s.beginRun inputs).addrMax = s.addrMax := rfl
@[simp] theorem State.beginRun_ip (s : State) (inputs : List Word) : (s.beginRun inputs).ip = s.ip := rfl
@[simp] theorem State.beginRun_rb (s : State) (inputs : List Word) : (s.beginRun inputs).rb = s.rb := rfl
@[simp] theorem State.beginRun_st (s : State) (inputs : List Word) : (s.beginRun inputs).st = .running := rfl
@[simp] theorem State.beginRun_fk (s : State) (inputs : List Word) : (s.beginRun inputs).fk = s.fk := rfl
@[simp] theorem State.beginRun_busy (s : State) (inputs : List Word) : (s.beginRun inputs).busy = true := rfl
@[simp] theorem State.beginRun_mem (s : State) (inputs : List Word) : (s.beginRun inputs).mem = s.mem := rfl
@[simp] theorem State.beginRun_inq (s : State) (inputs : List Word) : (s.beginRun inputs).inq = inputs := rfl
@[simp] theorem State.beginRun_outq (s : State) (inputs : List Word) : (s.beginRun inputs).outq = [] := rfl
@[simp] theorem State.beginRun_pending (s : State) (inputs : List Word) : (s.beginRun inputs).pending = s.pending := rfl
@[simp] theorem State.beginRun_replies (s : State) (inputs : List Word) : (s.beginRun inputs).replies = s.replies := rfl

/-! ## `construct` -/

@[simp] theorem State.construct_addrMax (s : State) (p : List Word) : (s.construct p).addrMax = s.addrMax := rfl
@[simp] theorem State.construct_ip (s : State) (p : List Word) : (s.construct p).ip = 0 := rfl
@[simp] theorem State.construct_rb (s : State) (p : List Word) : (s.construct p).rb = 0 := rfl
@[simp] theorem State.construct_st (s : State) (p : List Word) : (s.construct p).st = .running := rfl
@[simp] theorem State.construct_fk (s : State) (p : List Word) : (s.construct p).fk = none := rfl
@[simp] theorem State.construct_busy (s : State) (p : List Word) : (s.construct p).busy = false := rfl
@[simp] theorem State.construct_mem (s : State) (p : List Word) : (s.construct p).mem = Memory.load p := rfl
@[simp] theorem State.construct_inq (s : State) (p : List Word) : (s.construct p).inq = [] := rfl
@[simp] theorem State.construct_outq (s : State) (p : List Word) : (s.construct p).outq = [] := rfl
@[simp] theorem State.construct_pending (s : State) (p : List Word) : (s.construct p).pending = s.pending := rfl
@[simp] theorem State.construct_replies (s : State) (p : List Word) : (s.construct p).replies = s.replies := rfl

end Sys2Proof.Machine
end

