-- ==== Sys2Proof/Laws/Exec.lean ====
section
/-! SUPPORT. What each shared form of an instruction does: it completes, it takes the fault of its first failing check, and
nothing else; and the cases of `exec` as a whole. -/

namespace Sys2Proof.Machine

@[simp] theorem commit_ok (s t : State) : commit s (.ok t) = .next t := rfl

@[simp] theorem commit_error (s : State) (k : FaultKind) : commit s (.error k) = .next (s.raise k) := rfl

/-- An instruction always has a next state: its effect, or the entry of a fault (R118, R238). -/
theorem commit_next {s t : State} {r : Except FaultKind State} :
    commit s r = .next t ↔ r = .ok t ∨ ∃ k, r = .error k ∧ t = s.raise k := by
  cases r with
  | ok u => simp [commit]
  | error k =>
    simp only [commit, Host.Outcome.next.injEq, reduceCtorEq, Except.error.injEq, exists_eq_left', false_or]
    exact eq_comm

/-! ## ADD, MUL, LT, EQ -/

theorem storeResult_done (f : Word → Word → Word) {s : State} {a b dst : Mode} {x y : Word} {ea : Nat}
    (ha : Operand s 1 a x) (hb : Operand s 2 b y) (hd : EffAddr s 3 dst ea) (hip : s.ip + 4 ≤ s.addrMax) :
    storeResult f a b dst s = .next ((s.writeCell ea (f x y)).setIp (s.ip + 4)) := by
  simp [storeResult, resolveRead_ok.2 ha, resolveRead_ok.2 hb, resolveWrite_ok.2 hd, nextIp_ok.2 ⟨rfl, hip⟩]

theorem storeResult_fault_a (f : Word → Word → Word) {s : State} {a b dst : Mode} {k : FaultKind}
    (ha : SlotFault s 1 a k) : storeResult f a b dst s = .next (s.raise k) := by
  simp [storeResult, resolveRead_error.2 ha]

theorem storeResult_fault_b (f : Word → Word → Word) {s : State} {a b dst : Mode} {x : Word} {k : FaultKind}
    (ha : Operand s 1 a x) (hb : SlotFault s 2 b k) : storeResult f a b dst s = .next (s.raise k) := by
  simp [storeResult, resolveRead_ok.2 ha, resolveRead_error.2 hb]

theorem storeResult_fault_dst (f : Word → Word → Word) {s : State} {a b dst : Mode} {x y : Word} {k : FaultKind}
    (ha : Operand s 1 a x) (hb : Operand s 2 b y) (hm : dst ≠ .immediate) (hd : SlotFault s 3 dst k) :
    storeResult f a b dst s = .next (s.raise k) := by
  simp [storeResult, resolveRead_ok.2 ha, resolveRead_ok.2 hb, (resolveWrite_error hm).2 hd]

theorem storeResult_fault_ip (f : Word → Word → Word) {s : State} {a b dst : Mode} {x y : Word} {ea : Nat}
    (ha : Operand s 1 a x) (hb : Operand s 2 b y) (hd : EffAddr s 3 dst ea) (hip : s.addrMax < s.ip + 4) :
    storeResult f a b dst s = .next (s.raise .addressLimit) := by
  simp [storeResult, resolveRead_ok.2 ha, resolveRead_ok.2 hb, resolveWrite_ok.2 hd, nextIp_error.2 ⟨hip, rfl⟩]

theorem storeResult_cases {f : Word → Word → Word} {s t : State} {a b dst : Mode}
    (h : storeResult f a b dst s = .next t) :
    (∃ x y ea, Operand s 1 a x ∧ Operand s 2 b y ∧ EffAddr s 3 dst ea ∧ s.ip + 4 ≤ s.addrMax ∧
      t = (s.writeCell ea (f x y)).setIp (s.ip + 4)) ∨ ∃ k, t = s.raise k := by
  obtain h | ⟨k, -, rfl⟩ := commit_next.1 h
  · simp only [except_bind_eq_ok, except_pure_eq_ok, resolveRead_ok, resolveWrite_ok, nextIp_ok] at h
    obtain ⟨x, hx, y, hy, ea, he, _, ⟨rfl, hip⟩, rfl⟩ := h
    exact .inl ⟨x, y, ea, hx, hy, he, hip, rfl⟩
  · exact .inr ⟨k, rfl⟩

/-! ## ARB -/

theorem execArb_done {s : State} {a : Mode} {x : Word} (ha : Operand s 1 a x) (hip : s.ip + 2 ≤ s.addrMax) :
    execArb a s = .next ((s.setRb (aluAdd s.rb x)).setIp (s.ip + 2)) := by
  simp [execArb, resolveRead_ok.2 ha, nextIp_ok.2 ⟨rfl, hip⟩]

theorem execArb_fault_a {s : State} {a : Mode} {k : FaultKind} (ha : SlotFault s 1 a k) :
    execArb a s = .next (s.raise k) := by
  simp [execArb, resolveRead_error.2 ha]

theorem execArb_fault_ip {s : State} {a : Mode} {x : Word} (ha : Operand s 1 a x) (hip : s.addrMax < s.ip + 2) :
    execArb a s = .next (s.raise .addressLimit) := by
  simp [execArb, resolveRead_ok.2 ha, nextIp_error.2 ⟨hip, rfl⟩]

theorem execArb_cases {s t : State} {a : Mode} (h : execArb a s = .next t) :
    (∃ x, Operand s 1 a x ∧ s.ip + 2 ≤ s.addrMax ∧ t = (s.setRb (aluAdd s.rb x)).setIp (s.ip + 2)) ∨
      ∃ k, t = s.raise k := by
  obtain h | ⟨k, -, rfl⟩ := commit_next.1 h
  · simp only [except_bind_eq_ok, except_pure_eq_ok, resolveRead_ok, nextIp_ok] at h
    obtain ⟨x, hx, _, ⟨rfl, hip⟩, rfl⟩ := h
    exact .inl ⟨x, hx, hip, rfl⟩
  · exact .inr ⟨k, rfl⟩

/-! ## IN and OUT -/

theorem execInp_done {s : State} {dst : Mode} {ea : Nat} {v : Word} {rest : List Word} (hd : EffAddr s 1 dst ea)
    (hip : s.ip + 2 ≤ s.addrMax) (hq : s.inq = v :: rest) :
    execInp dst s = .next (((s.dropInput rest).writeCell ea v).setIp (s.ip + 2)) := by
  simp [execInp, resolveWrite_ok.2 hd, nextIp_ok.2 ⟨rfl, hip⟩, hq]

theorem execInp_suspends {s : State} {dst : Mode} {ea : Nat} (hd : EffAddr s 1 dst ea)
    (hip : s.ip + 2 ≤ s.addrMax) (hq : s.inq = []) : execInp dst s = .next s.suspend := by
  simp [execInp, resolveWrite_ok.2 hd, nextIp_ok.2 ⟨rfl, hip⟩, hq]

theorem execInp_fault_dst {s : State} {dst : Mode} {k : FaultKind} (hm : dst ≠ .immediate) (hd : SlotFault s 1 dst k) :
    execInp dst s = .next (s.raise k) := by
  simp [execInp, (resolveWrite_error hm).2 hd]

theorem execInp_fault_ip {s : State} {dst : Mode} {ea : Nat} (hd : EffAddr s 1 dst ea) (hip : s.addrMax < s.ip + 2) :
    execInp dst s = .next (s.raise .addressLimit) := by
  simp [execInp, resolveWrite_ok.2 hd, nextIp_error.2 ⟨hip, rfl⟩]

theorem execInp_cases {s t : State} {dst : Mode} (h : execInp dst s = .next t) :
    (∃ ea v rest, EffAddr s 1 dst ea ∧ s.ip + 2 ≤ s.addrMax ∧ s.inq = v :: rest ∧
      t = ((s.dropInput rest).writeCell ea v).setIp (s.ip + 2)) ∨
    (∃ ea, EffAddr s 1 dst ea ∧ s.ip + 2 ≤ s.addrMax ∧ s.inq = [] ∧ t = s.suspend) ∨ ∃ k, t = s.raise k := by
  obtain h | ⟨k, -, rfl⟩ := commit_next.1 h
  · simp only [except_bind_eq_ok, resolveWrite_ok, nextIp_ok] at h
    obtain ⟨ea, he, _, ⟨rfl, hip⟩, h⟩ := h
    cases hq : s.inq with
    | nil =>
      rw [hq] at h
      cases h
      exact .inr (.inl ⟨ea, he, hip, rfl, rfl⟩)
    | cons v rest =>
      rw [hq] at h
      cases h
      exact .inl ⟨ea, v, rest, he, hip, rfl, rfl⟩
  · exact .inr (.inr ⟨k, rfl⟩)

theorem execOut_done {s : State} {a : Mode} {x : Word} (ha : Operand s 1 a x) (hip : s.ip + 2 ≤ s.addrMax) :
    execOut a s = .next ((s.pushOutput x).setIp (s.ip + 2)) := by
  simp [execOut, resolveRead_ok.2 ha, nextIp_ok.2 ⟨rfl, hip⟩]

theorem execOut_fault_a {s : State} {a : Mode} {k : FaultKind} (ha : SlotFault s 1 a k) :
    execOut a s = .next (s.raise k) := by
  simp [execOut, resolveRead_error.2 ha]

theorem execOut_fault_ip {s : State} {a : Mode} {x : Word} (ha : Operand s 1 a x) (hip : s.addrMax < s.ip + 2) :
    execOut a s = .next (s.raise .addressLimit) := by
  simp [execOut, resolveRead_ok.2 ha, nextIp_error.2 ⟨hip, rfl⟩]

theorem execOut_cases {s t : State} {a : Mode} (h : execOut a s = .next t) :
    (∃ x, Operand s 1 a x ∧ s.ip + 2 ≤ s.addrMax ∧ t = (s.pushOutput x).setIp (s.ip + 2)) ∨ ∃ k, t = s.raise k := by
  obtain h | ⟨k, -, rfl⟩ := commit_next.1 h
  · simp only [except_bind_eq_ok, except_pure_eq_ok, resolveRead_ok, nextIp_ok] at h
    obtain ⟨x, hx, _, ⟨rfl, hip⟩, rfl⟩ := h
    exact .inl ⟨x, hx, hip, rfl⟩
  · exact .inr ⟨k, rfl⟩

/-! ## JT and JF -/

theorem jumpWhen_taken {p : Word → Bool} {s : State} {a target : Mode} {x t : Word} {n : Nat}
    (ha : Operand s 1 a x) (ht : Operand s 2 target t) (hp : p x = true) (hn : t.toInt = (n : Int))
    (hle : n ≤ s.addrMax) : jumpWhen p a target s = .next (s.setIp n) := by
  simp [jumpWhen, jumpIp, resolveRead_ok.2 ha, resolveRead_ok.2 ht, hp, checkAddr_ok.2 ⟨hn, hle⟩]

theorem jumpWhen_not_taken {p : Word → Bool} {s : State} {a target : Mode} {x t : Word}
    (ha : Operand s 1 a x) (ht : Operand s 2 target t) (hp : p x = false) (hip : s.ip + 3 ≤ s.addrMax) :
    jumpWhen p a target s = .next (s.setIp (s.ip + 3)) := by
  simp [jumpWhen, jumpIp, resolveRead_ok.2 ha, resolveRead_ok.2 ht, hp, nextIp_ok.2 ⟨rfl, hip⟩]

theorem jumpWhen_fault_a {p : Word → Bool} {s : State} {a target : Mode} {k : FaultKind} (ha : SlotFault s 1 a k) :
    jumpWhen p a target s = .next (s.raise k) := by
  simp [jumpWhen, jumpIp, resolveRead_error.2 ha]

theorem jumpWhen_fault_target {p : Word → Bool} {s : State} {a target : Mode} {x : Word} {k : FaultKind}
    (ha : Operand s 1 a x) (ht : SlotFault s 2 target k) : jumpWhen p a target s = .next (s.raise k) := by
  simp [jumpWhen, jumpIp, resolveRead_ok.2 ha, resolveRead_error.2 ht]

theorem jumpWhen_fault_taken {p : Word → Bool} {s : State} {a target : Mode} {x t : Word} {k : FaultKind}
    (ha : Operand s 1 a x) (ht : Operand s 2 target t) (hp : p x = true) (hk : IndexFault s t.toInt k) :
    jumpWhen p a target s = .next (s.raise k) := by
  simp [jumpWhen, jumpIp, resolveRead_ok.2 ha, resolveRead_ok.2 ht, hp, checkAddr_error.2 hk]

theorem jumpWhen_fault_ip {p : Word → Bool} {s : State} {a target : Mode} {x t : Word}
    (ha : Operand s 1 a x) (ht : Operand s 2 target t) (hp : p x = false) (hip : s.addrMax < s.ip + 3) :
    jumpWhen p a target s = .next (s.raise .addressLimit) := by
  simp [jumpWhen, jumpIp, resolveRead_ok.2 ha, resolveRead_ok.2 ht, hp, nextIp_error.2 ⟨hip, rfl⟩]

theorem jumpWhen_cases {p : Word → Bool} {s u : State} {a target : Mode} (h : jumpWhen p a target s = .next u) :
    (∃ x t n, Operand s 1 a x ∧ Operand s 2 target t ∧ n ≤ s.addrMax ∧ u = s.setIp n ∧
      ((p x = true ∧ t.toInt = (n : Int)) ∨ (p x = false ∧ n = s.ip + 3))) ∨ ∃ k, u = s.raise k := by
  obtain h | ⟨k, -, rfl⟩ := commit_next.1 h
  · simp only [except_bind_eq_ok, except_pure_eq_ok, resolveRead_ok, jumpIp] at h
    obtain ⟨x, hx, t, ht, n, hn, rfl⟩ := h
    refine .inl ⟨x, t, n, hx, ht, ?_⟩
    cases hp : p x with
    | true =>
      rw [hp, if_pos rfl, checkAddr_ok] at hn
      exact ⟨hn.2, rfl, .inl ⟨rfl, hn.1⟩⟩
    | false =>
      rw [hp, if_neg Bool.false_ne_true, nextIp_ok] at hn
      exact ⟨by omega, rfl, .inr ⟨rfl, hn.1⟩⟩
  · exact .inr ⟨k, rfl⟩

/-! ## `exec` as a whole -/

/-- Every instruction has a next state, in every state. -/
theorem exec_next (i : Instr) (s : State) : ∃ t, exec i s = .next t := by
  have h (r : Except FaultKind State) : ∃ t, commit s r = .next t := by
    cases r with
    | ok t => exact ⟨t, rfl⟩
    | error k => exact ⟨s.raise k, rfl⟩
  cases i with
  | add a b dst => exact h _
  | mul a b dst => exact h _
  | inp dst => exact h _
  | out a => exact h _
  | jt a target => exact h _
  | jf a target => exact h _
  | lt a b dst => exact h _
  | eq a b dst => exact h _
  | arb a => exact h _
  | hlt => exact ⟨s.halt, rfl⟩

/-- The effect of a completed instruction, of any of the ten: what `exec` can do to a state, in one place (R123). -/
inductive Effect (i : Instr) (s : State) : State → Prop where
  /-- ADD, MUL, LT, EQ. -/
  | stored (slot ea : Nat) (m : Mode) (v : Word) (hslot : i.writeSlot = some slot) (hm : i.modes[slot - 1]? = some m)
      (hlen : i.length = 4) (hea : EffAddr s slot m ea) (hip : s.ip + 4 ≤ s.addrMax) :
      Effect i s ((s.writeCell ea v).setIp (s.ip + 4))
  /-- IN with a value available. -/
  | consumed (ea : Nat) (m : Mode) (v : Word) (rest : List Word) (hi : i = .inp m) (hea : EffAddr s 1 m ea)
      (hip : s.ip + 2 ≤ s.addrMax) (hq : s.inq = v :: rest) :
      Effect i s (((s.dropInput rest).writeCell ea v).setIp (s.ip + 2))
  /-- IN with the queue empty. -/
  | suspended (ea : Nat) (m : Mode) (hi : i = .inp m) (hea : EffAddr s 1 m ea) (hip : s.ip + 2 ≤ s.addrMax)
      (hq : s.inq = []) : Effect i s s.suspend
  /-- OUT. -/
  | pushed (m : Mode) (v : Word) (hi : i = .out m) (hv : Operand s 1 m v) (hip : s.ip + 2 ≤ s.addrMax) :
      Effect i s ((s.pushOutput v).setIp (s.ip + 2))
  /-- JT and JF. -/
  | jumped (a target : Mode) (t : Word) (n : Nat) (hi : i = .jt a target ∨ i = .jf a target) (ht : Operand s 2 target t)
      (hle : n ≤ s.addrMax) (hn : t.toInt = (n : Int) ∨ n = s.ip + 3) : Effect i s (s.setIp n)
  /-- ARB. -/
  | adjusted (m : Mode) (v : Word) (hi : i = .arb m) (hv : Operand s 1 m v) (hip : s.ip + 2 ≤ s.addrMax) :
      Effect i s ((s.setRb (aluAdd s.rb v)).setIp (s.ip + 2))
  /-- HLT. -/
  | halted (hi : i = .hlt) : Effect i s s.halt
  /-- A fault of any of the ten, but not of HLT. -/
  | faulted (k : FaultKind) (hi : i ≠ .hlt) : Effect i s (s.raise k)

/-- Whatever `exec` answers is one of the eight effects. -/
theorem exec_effect {i : Instr} {s t : State} (h : exec i s = .next t) : Effect i s t := by
  have binary {f : Word → Word → Word} {a b dst : Mode} (h : storeResult f a b dst s = .next t)
      (hslot : i.writeSlot = some 3) (hm : i.modes[2]? = some dst) (hlen : i.length = 4) (hi : i ≠ .hlt) :
      Effect i s t := by
    obtain ⟨x, y, ea, -, -, he, hip, rfl⟩ | ⟨k, rfl⟩ := storeResult_cases h
    · exact .stored 3 ea dst _ hslot hm hlen he hip
    · exact .faulted k hi
  have jump {p : Word → Bool} {a target : Mode} (h : jumpWhen p a target s = .next t)
      (hi : i = .jt a target ∨ i = .jf a target) (hne : i ≠ .hlt) : Effect i s t := by
    obtain ⟨x, u, n, -, hu, hle, rfl, hn⟩ | ⟨k, rfl⟩ := jumpWhen_cases h
    · exact .jumped a target u n hi hu hle (hn.imp And.right And.right)
    · exact .faulted k hne
  cases i with
  | add a b dst => exact binary h rfl rfl rfl (by simp)
  | mul a b dst => exact binary h rfl rfl rfl (by simp)
  | lt a b dst => exact binary h rfl rfl rfl (by simp)
  | eq a b dst => exact binary h rfl rfl rfl (by simp)
  | jt a target => exact jump h (.inl rfl) (by simp)
  | jf a target => exact jump h (.inr rfl) (by simp)
  | inp dst =>
    obtain ⟨ea, v, rest, he, hip, hq, rfl⟩ | ⟨ea, he, hip, hq, rfl⟩ | ⟨k, rfl⟩ := execInp_cases h
    · exact .consumed ea dst v rest rfl he hip hq
    · exact .suspended ea dst rfl he hip hq
    · exact .faulted k (by simp)
  | out a =>
    obtain ⟨x, hx, hip, rfl⟩ | ⟨k, rfl⟩ := execOut_cases h
    · exact .pushed a x rfl hx hip
    · exact .faulted k (by simp)
  | arb a =>
    obtain ⟨x, hx, hip, rfl⟩ | ⟨k, rfl⟩ := execArb_cases h
    · exact .adjusted a x rfl hx hip
    · exact .faulted k (by simp)
  | hlt =>
    cases h
    exact .halted rfl

end Sys2Proof.Machine
end

