-- ==== Sys2Proof/Laws/PerInstr.lean ====
section
/-! SUPPORT. Per instruction: the digits of the number the encoder writes are the instruction's opcode and mode digits, and the
number is below 100000, so that no digit above the ten-thousands place is set (30_encoding.md R81, R94). -/

namespace Sys2Proof.Laws

/-- The shape of an encoded instruction. -/
abbrev EncodeShape.Statement (i : Instr) : Prop :=
  encodeNat i < 100000 ∧ encodeNat i % 100 = i.opcode ∧ digit (encodeNat i) 2 = i.modeDigit 1 ∧
    digit (encodeNat i) 3 = i.modeDigit 2 ∧ digit (encodeNat i) 4 = i.modeDigit 3

theorem digit_le_two (m : Mode) : m.digit ≤ 2 := by cases m <;> decide

theorem EncodeShape.add (a b dst : Mode) : EncodeShape.Statement (.add a b dst) := by
  cases a <;> cases b <;> cases dst <;> decide

theorem EncodeShape.mul (a b dst : Mode) : EncodeShape.Statement (.mul a b dst) := by
  cases a <;> cases b <;> cases dst <;> decide

theorem EncodeShape.inp (dst : Mode) : EncodeShape.Statement (.inp dst) := by cases dst <;> decide

theorem EncodeShape.out (a : Mode) : EncodeShape.Statement (.out a) := by cases a <;> decide

theorem EncodeShape.jt (a target : Mode) : EncodeShape.Statement (.jt a target) := by
  cases a <;> cases target <;> decide

theorem EncodeShape.jf (a target : Mode) : EncodeShape.Statement (.jf a target) := by
  cases a <;> cases target <;> decide

theorem EncodeShape.lt (a b dst : Mode) : EncodeShape.Statement (.lt a b dst) := by
  cases a <;> cases b <;> cases dst <;> decide

theorem EncodeShape.eq (a b dst : Mode) : EncodeShape.Statement (.eq a b dst) := by
  cases a <;> cases b <;> cases dst <;> decide

theorem EncodeShape.arb (a : Mode) : EncodeShape.Statement (.arb a) := by cases a <;> decide

theorem EncodeShape.hlt : EncodeShape.Statement .hlt := by decide

end Sys2Proof.Laws
end

