-- ==== Sys2Proof/Laws/Step.lean ====
section
/-! SUPPORT. What a step can do: the cases of the core's step and of the host's move, each said once. -/

namespace Sys2Proof.Machine

/-! ## The return of a run -/

@[simp] theorem delivered_next (s : State) : delivered (.next s) = .next s.deliver := rfl

/-- `deliver` changes at most the host's log, by at most one answer. -/
theorem State.deliver_eq (s : State) : ∃ rs, s.deliver = { s with replies := rs } := by
  unfold State.deliver
  split
  · exact ⟨_, rfl⟩
  · split
    · exact ⟨_, rfl⟩
    · exact ⟨_, rfl⟩

theorem State.deliver_of_busy {s : State} (h : s.busy = true) : s.deliver = s := by
  unfold State.deliver
  rw [if_pos h]

theorem State.deliver_of_result {s : State} {r : HostReply} (h : s.busy = false) (hr : s.runResult = some r) :
    s.deliver = s.reply r := by
  unfold State.deliver
  rw [if_neg (by simp [h]), hr]

@[simp] theorem State.deliver_addrMax (s : State) : s.deliver.addrMax = s.addrMax := by
  obtain ⟨_, h⟩ := s.deliver_eq; rw [h]
@[simp] theorem State.deliver_ip (s : State) : s.deliver.ip = s.ip := by obtain ⟨_, h⟩ := s.deliver_eq; rw [h]
@[simp] theorem State.deliver_rb (s : State) : s.deliver.rb = s.rb := by obtain ⟨_, h⟩ := s.deliver_eq; rw [h]
@[simp] theorem State.deliver_st (s : State) : s.deliver.st = s.st := by obtain ⟨_, h⟩ := s.deliver_eq; rw [h]
@[simp] theorem State.deliver_fk (s : State) : s.deliver.fk = s.fk := by obtain ⟨_, h⟩ := s.deliver_eq; rw [h]
@[simp] theorem State.deliver_busy (s : State) : s.deliver.busy = s.busy := by obtain ⟨_, h⟩ := s.deliver_eq; rw [h]
@[simp] theorem State.deliver_mem (s : State) : s.deliver.mem = s.mem := by obtain ⟨_, h⟩ := s.deliver_eq; rw [h]
@[simp] theorem State.deliver_inq (s : State) : s.deliver.inq = s.inq := by obtain ⟨_, h⟩ := s.deliver_eq; rw [h]
@[simp] theorem State.deliver_outq (s : State) : s.deliver.outq = s.outq := by obtain ⟨_, h⟩ := s.deliver_eq; rw [h]
@[simp] theorem State.deliver_pending (s : State) : s.deliver.pending = s.pending := by
  obtain ⟨_, h⟩ := s.deliver_eq; rw [h]

/-! ## The core's step -/

theorem State.fetch_of_le {s : State} (h : s.ip ≤ s.addrMax) : s.fetch = some (s.mem.read s.ip) := if_pos h

theorem step_of_busy {s : State} (hb : s.busy = true) (hip : s.ip ≤ s.addrMax) :
    step s = match decode (s.mem.read s.ip) with
      | .error r => .next (s.raise (rejectionFault r)).deliver
      | .ok i => delivered (exec i s) := by
  unfold step
  rw [if_pos hb, State.fetch_of_le hip]
  dsimp only
  cases decode (s.mem.read s.ip) <;> rfl

/-- A step of the core that answers is a fault of decoding or one instruction, followed by the return of the run it may end. -/
theorem step_busy_cases {s t : State} (hb : s.busy = true) (h : step s = .next t) :
    s.ip ≤ s.addrMax ∧
      ((∃ r, decode (s.mem.read s.ip) = .error r ∧ t = (s.raise (rejectionFault r)).deliver) ∨
        ∃ i u, decode (s.mem.read s.ip) = .ok i ∧ exec i s = .next u ∧ t = u.deliver) := by
  by_cases hip : s.ip ≤ s.addrMax
  · refine ⟨hip, ?_⟩
    rw [step_of_busy hb hip] at h
    cases hd : decode (s.mem.read s.ip) with
    | error r =>
      rw [hd] at h
      cases h
      exact .inl ⟨r, rfl, rfl⟩
    | ok i =>
      obtain ⟨u, hu⟩ := exec_next i s
      rw [hd] at h
      simp only [hu, delivered_next] at h
      cases h
      exact .inr ⟨i, u, rfl, hu, rfl⟩
  · unfold step State.fetch at h
    rw [if_pos hb, if_neg hip] at h
    cases h

/-! ## The host's move -/

theorem step_of_idle {s : State} (hb : s.busy = false) : step s = hostMove s := by
  unfold step
  rw [if_neg (by simp [hb])]

/-- A move of the host that answers, of any of its transactions. -/
theorem step_idle_cases {s t : State} (hb : s.busy = false) (h : step s = .next t) :
    (s.pending = [] ∧ t = s) ∨
    (∃ p rest, s.pending = .reset p :: rest ∧ p.length ≤ s.addrMax + 1 ∧
      t = ({ s with pending := rest } : State).construct p) ∨
    (∃ a v rest, s.pending = .poke (Int.ofNat a) v :: rest ∧ a ≤ s.addrMax ∧
      t = ({ s with pending := rest } : State).writeCell a v) ∨
    (∃ inputs rest, s.pending = .run inputs :: rest ∧ (s.st = .running ∨ s.st = .awaitingInput) ∧
      t = ({ s with pending := rest } : State).beginRun inputs) ∨
    (∃ c rest r, s.pending = c :: rest ∧ (∀ p, c ≠ .reset p) ∧ t = ({ s with pending := rest } : State).reply r) := by
  rw [step_of_idle hb] at h
  unfold hostMove at h
  cases hp : s.pending with
  | nil =>
    rw [hp] at h
    cases h
    exact .inl ⟨rfl, rfl⟩
  | cons c rest =>
    rw [hp] at h
    cases c with
    | reset p =>
      simp only [hostCall] at h
      split at h
      · next hl =>
        cases h
        exact .inr (.inl ⟨p, rest, rfl, hl, rfl⟩)
      · cases h
    | poke a v =>
      simp only [hostCall] at h
      split at h
      · next i hi =>
        cases h
        obtain ⟨rfl, hle⟩ := checkAddr_ok.1 hi
        exact .inr (.inr (.inl ⟨i, v, rest, rfl, hle, rfl⟩))
      · cases h
        exact .inr (.inr (.inr (.inr ⟨_, rest, _, rfl, by simp, rfl⟩)))
    | run inputs =>
      simp only [hostCall] at h
      split at h
      · next hs =>
        cases h
        exact .inr (.inr (.inr (.inl ⟨inputs, rest, rfl, .inl hs, rfl⟩)))
      · next hs =>
        cases h
        exact .inr (.inr (.inr (.inl ⟨inputs, rest, rfl, .inr hs, rfl⟩)))
      · cases h
        exact .inr (.inr (.inr (.inr ⟨_, rest, _, rfl, by simp, rfl⟩)))
      · cases h
        exact .inr (.inr (.inr (.inr ⟨_, rest, _, rfl, by simp, rfl⟩)))

/-! ## Runs -/

theorem runsTo_zero {s t : State} : RunsTo 0 s t ↔ s = t := Iff.rfl

theorem runsTo_succ {n : Nat} {s t : State} : RunsTo (n + 1) s t ↔ ∃ u, step s = .next u ∧ RunsTo n u t := Iff.rfl

theorem run_succ_next (M : Host.Core) (n : Nat) {s u : M.State} {t : M.State} (h : M.step s = .next u) :
    M.run (n + 1) s = .next t ↔ M.run n u = .next t := by
  rw [Host.Core.run, h]

theorem run_succ_stop (M : Host.Core) (n : Nat) {s : M.State} {t : M.State} (h : ∀ u, M.step s ≠ .next u) :
    M.run (n + 1) s ≠ .next t := by
  rw [Host.Core.run]
  split
  · next u hu => exact absurd hu (h u)
  · nofun
  · nofun

/-- `RunsTo` is the host's own iteration of the step. -/
theorem runsTo_iff_run {n : Nat} {s t : State} : RunsTo n s t ↔ core.run n s = Host.Outcome.next (σ := State) t := by
  induction n generalizing s with
  | zero => exact ⟨fun h => congrArg Host.Outcome.next h, fun h => Host.Outcome.next.inj h⟩
  | succ n ih =>
    rw [runsTo_succ]
    constructor
    · rintro ⟨u, hu, hr⟩
      exact (run_succ_next core n hu).2 (ih.1 hr)
    · intro h
      by_contra hno
      refine run_succ_stop core n (s := s) (t := t) (fun u hu => hno ⟨u, hu, ?_⟩) h
      exact ih.2 ((run_succ_next core n hu).1 h)

theorem RunsTo.append {m n : Nat} {s t u : State} (h : RunsTo m s t) (h' : RunsTo n t u) : RunsTo (m + n) s u := by
  induction m generalizing s with
  | zero => rw [Nat.zero_add]; exact runsTo_zero.1 h ▸ h'
  | succ m ih =>
    obtain ⟨v, hv, hr⟩ := h
    rw [Nat.add_right_comm]
    exact ⟨v, hv, ih hr⟩

/-- An invariant of one step holds along every run. -/
theorem RunsTo.invariant {P : State → Prop} (hstep : ∀ s t, P s → step s = .next t → P t) {n : Nat} {s t : State}
    (h : RunsTo n s t) (hs : P s) : P t := by
  induction n generalizing s with
  | zero => exact runsTo_zero.1 h ▸ hs
  | succ n ih =>
    obtain ⟨u, hu, hr⟩ := runsTo_succ.1 h
    exact ih hr (hstep s u hs hu)

end Sys2Proof.Machine
end

