-- ==== Sys2Proof/Tests/Slice0.lean ====
section
/-! SUPPORT. The model's own tests: ill-formed terms refused, words of the spec decoded and encoded, one step at a time against the
spec's vectors, and for every statement with hypotheses a machine that meets them.

Every expected value is the spec's: R94 and R99 (30_encoding.md), R162 (42_alu.md), R184 (43_io.md), R196 (44_control_transfer.md),
R220 (45_run_interface.md), R251 (60_exceptions.md). -/

namespace Sys2Proof.Machine.Tests

/-- The machine with `cells` from cell 0 on, in the first step of a run. -/
def machine (cells : List Word) : State := { State.reset.construct cells with busy := true }

/-- The same, with `max` for ADDR_MAX. -/
def tiny (max : Nat) (cells : List Word) : State := { machine cells with addrMax := max }

/-- The machine with `cells`, idle, and what the host will do. -/
def hosted (cells : List Word) (calls : List HostCall) : State := { State.reset.construct cells with pending := calls }

/-- The next state, where there is one. -/
def after (r : Host.Outcome State Fault Refusal) : State :=
  match r with
  | .next s => s
  | .fault _ => State.reset
  | .refused _ => State.reset

/-- The state `n` steps on. -/
def steps : Nat → State → State
  | 0, s => s
  | n + 1, s => steps n (after (step s))

/-! ## Well-formedness: an immediate write operand is refused (R87) -/

theorem test_wf_refuses_add : (Instr.add .position .position .immediate).wf = false := by decide
theorem test_wf_refuses_mul : (Instr.mul .position .position .immediate).wf = false := by decide
theorem test_wf_refuses_inp : (Instr.inp .immediate).wf = false := by decide
theorem test_wf_refuses_lt : (Instr.lt .position .position .immediate).wf = false := by decide
theorem test_wf_refuses_eq : (Instr.eq .position .position .immediate).wf = false := by decide
theorem test_wf_accepts_immediate_reads : (Instr.add .immediate .immediate .relative).wf = true := by decide

/-! ## Decoding and encoding: words of R94 and R99 -/

theorem test_decode_add : decode 1001 = .ok (.add .position .immediate .position) := by decide
theorem test_decode_mul : decode 1102 = .ok (.mul .immediate .immediate .position) := by decide
theorem test_decode_in : decode 203 = .ok (.inp .relative) := by decide
theorem test_decode_out : decode 104 = .ok (.out .immediate) := by decide
theorem test_decode_jt : decode 2105 = .ok (.jt .immediate .relative) := by decide
theorem test_decode_jf : decode 1006 = .ok (.jf .position .immediate) := by decide
theorem test_decode_lt : decode 21107 = .ok (.lt .immediate .immediate .relative) := by decide
theorem test_decode_eq : decode 1108 = .ok (.eq .immediate .immediate .position) := by decide
theorem test_decode_arb : decode 109 = .ok (.arb .immediate) := by decide
theorem test_decode_hlt : decode 99 = .ok .hlt := by decide
theorem test_decode_ignores_absent_slots : decode 30004 = .ok (.out .position) ∧ decode 10099 = .ok .hlt := by decide
theorem test_decode_ignores_high_digits : decode 100001 = .ok (.add .position .position .position) := by decide
theorem test_decode_unknown : decode 198 = .error .unknownOpcode ∧ decode (-99) = .error .unknownOpcode := by decide
theorem test_decode_slot_two_first : decode 13001 = .error .invalidAddressingMode := by decide
theorem test_decode_write_target : decode 10001 = .error .invalidWriteTarget := by decide
theorem test_decode_write_digit_above_two : decode 303 = .error .invalidAddressingMode := by decide

theorem test_encode_three_slots : encode (.add .relative .relative .relative) = 22201 := by decide
theorem test_encode_one_slot : encode (.arb .relative) = 209 := by decide
theorem test_encode_no_slot : encode .hlt = 99 := by decide
theorem test_assemble : assemble (.out .relative) [-1] = [204, -1] := by decide

/-- The second cell stands in the bits 127..64. -/
theorem test_table_word : decodeTableWord 128 (7 * 2 ^ 64 + 104) = some (.out .immediate) ∧
    tableCell 128 (7 * 2 ^ 64 + 104) 1 = 7 := by decide

/-! ## One step -/

/-- R162: `1, 4, 5, 6, 20, 22, 0`. -/
theorem test_add : (after (step (machine [1, 4, 5, 6, 20, 22, 0]))).mem.read 6 = 42 := by decide
/-- R162: `1101, 2^63 - 1, 1, 5`. -/
theorem test_add_wraps :
    (after (step (machine [1101, 9223372036854775807, 1, 5, 99, 0]))).mem.read 5 = -9223372036854775808 := by decide
/-- R162: `1002, 4, -1, 4, 17`, source and destination one cell. -/
theorem test_mul : (after (step (machine [1002, 4, -1, 4, 17]))).mem.read 4 = -17 := by decide
/-- R162: `1102, -1, -2^63, 5`. -/
theorem test_mul_wraps :
    (after (step (machine [1102, -1, -9223372036854775808, 5, 99, 0]))).mem.read 5 = -9223372036854775808 := by decide
/-- R162: `1107, -1, 0, 5`. -/
theorem test_lt_signed : (after (step (machine [1107, -1, 0, 5, 99, 7]))).mem.read 5 = 1 := by decide
/-- R162: `1107, 0, 0, 5`. -/
theorem test_lt_equal : (after (step (machine [1107, 0, 0, 5, 99, 7]))).mem.read 5 = 0 := by decide
/-- R162: `108, 1, 1, 5`. -/
theorem test_eq : (after (step (machine [108, 1, 1, 5, 99, 7]))).mem.read 5 = 1 := by decide
/-- R162: `109, 19` with RB = 2000. -/
theorem test_arb : (after (step { machine [109, 19] with rb := 2000 })).rb = 2019 := by decide
/-- R162: `109, 1` with RB = 2^63 - 1. -/
theorem test_arb_wraps :
    (after (step { machine [109, 1] with rb := 9223372036854775807 })).rb = -9223372036854775808 := by decide
/-- R184: `203, 3, 99` with RB = 10 and input 9. -/
theorem test_in : (after (step { machine [203, 3, 99] with rb := 10, inq := [9] })).mem.read 13 = 9 := by decide
/-- R184: `3, 0, 4, 0, 99` with no input. -/
theorem test_in_suspends : after (step (machine [3, 0, 4, 0, 99])) =
    { machine [3, 0, 4, 0, 99] with st := .awaitingInput, busy := false, replies := [.progress []] } := by decide
/-- R184: `3, -1, 99` with no input is a fault, not a suspension. -/
theorem test_in_checks_before_queue : (after (step (machine [3, -1, 99]))).fk = some .negativeMemoryIndex := by decide
/-- R184: `104, -5`, after an output. -/
theorem test_out : (after (step { machine [104, -5] with outq := [8] })).outq = [8, -5] := by decide
/-- R196: `2105, 1, 2` with RB = 3 and M[5] = 12. -/
theorem test_jt : (after (step { machine [2105, 1, 2, 0, 0, 12] with rb := 3 })).ip = 12 := by decide
/-- R196: `1105, 0, -1`: the target of an untaken jump is a value. -/
theorem test_jt_untaken : (after (step (machine [1105, 0, -1]))).ip = 3 := by decide
/-- R196: `1106, 0, 9`. -/
theorem test_jf : (after (step (machine [1106, 0, 9]))).ip = 9 := by decide
/-- R196: `1106, 2, 9`. -/
theorem test_jf_untaken : (after (step (machine [1106, 2, 9]))).ip = 3 := by decide
/-- R196: `1199, 5` halts at 0. -/
theorem test_hlt : (after (step (machine [1199, 5]))).st = .halted ∧ (after (step (machine [1199, 5]))).ip = 0 := by
  decide
/-- R251: `103, 0`, even with an empty queue. -/
theorem test_fault_write_target : (after (step (machine [103, 0]))).fk = some .invalidWriteTarget := by decide
/-- R220: `poke(-1, 5)`. -/
theorem test_host_error : (after (step (hosted [] [.poke (-1) 5]))).replies = [.badPokeIndex] := by decide

/-! ## Witnesses: machines that meet the hypotheses of the statements -/

theorem machine_inv {cells : List Word} (h : cells.length ≤ Config.defaultAddrMax + 1) : (machine cells).Inv :=
  ⟨Nat.le_refl _, Nat.zero_le _, Memory.load_wf cells, Memory.load_within cells h, by simp [machine], fun _ => rfl,
    fun _ => rfl⟩

theorem hosted_inv {cells : List Word} (h : cells.length ≤ Config.defaultAddrMax + 1) (calls : List HostCall) :
    (hosted cells calls).Inv :=
  ⟨Nat.le_refl _, Nat.zero_le _, Memory.load_wf cells, Memory.load_within cells h, by simp [hosted], fun _ => rfl,
    fun _ => rfl⟩

theorem operand_of {s : State} {i : Nat} {m : Mode} {v : Word} (h : resolveRead s i m = .ok v) : Operand s i m v :=
  resolveRead_ok.1 h

theorem effAddr_of {s : State} {i : Nat} {m : Mode} {ea : Nat} (h : resolveWrite s i m = .ok ea) : EffAddr s i m ea :=
  resolveWrite_ok.1 h

theorem slotFault_of {s : State} {i : Nat} {m : Mode} {k : FaultKind} (h : resolveRead s i m = .error k) :
    SlotFault s i m k :=
  resolveRead_error.1 h

theorem writeFault_of {s : State} {i : Nat} {m : Mode} {k : FaultKind} (hm : m ≠ .immediate)
    (h : resolveWrite s i m = .error k) : SlotFault s i m k :=
  (resolveWrite_error hm).1 h

/-! ### Encoding and memory -/

theorem witness_DecodeOfEncodeGivesBackInstruction : (Instr.lt .relative .immediate .position).wf = true := by decide

theorem witness_EncodeOfDecodeGivesBackCanonicalWord :
    Canonical 22201 ∧ decode 22201 = .ok (.add .relative .relative .relative) :=
  ⟨⟨by decide, by decide, by decide⟩, by decide⟩

/-- A rejected word and an accepted one of the same row. -/
theorem witness_ModeDigitsCheckedInSlotOrder :
    (⟨1, 3, some 3⟩ : OpcodeRow) ∈ opcodeMap ∧ 0 ≤ (13001 : Word).toInt ∧ (13001 : Word).toNat % 100 = 1 ∧
      slotReject ⟨1, 3, some 3⟩ 13001 2 = some .invalidAddressingMode ∧
      0 ≤ (1 : Word).toInt ∧ (1 : Word).toNat % 100 = 1 := by decide

theorem witness_DecodedInstructionFollowsDigits :
    decode 21107 = .ok (.lt .immediate .immediate .relative) := by decide

theorem witness_OnlyExaminedDigitsMatter :
    (⟨4, 1, none⟩ : OpcodeRow) ∈ opcodeMap ∧ 0 ≤ (4 : Word).toInt ∧ 0 ≤ (30004 : Word).toInt ∧
      (4 : Word).toNat % 100 = 4 ∧ (30004 : Word).toNat % 100 = 4 ∧
      digit (4 : Word).toNat 2 = digit (30004 : Word).toNat 2 := by decide

theorem witness_CanonicalMemoriesEqualByReads :
    Memory.wf [(2, 5), (9, -1)] = true ∧ ∀ a, Memory.read [(2, 5), (9, -1)] a = Memory.read [(2, 5), (9, -1)] a :=
  ⟨by decide, fun _ => rfl⟩

/-- A store through mode 0 to cell 5, read back through mode 2 with RB = 3 (R145). -/
theorem witness_StoredValueReadBackThroughAnyMode :
    (machine [1, 0, 0, 5]).mem.wf = true ∧ resolveWrite (machine [1, 0, 0, 5]) 3 .position = .ok 5 ∧
      (machine [4, 2, 0, 0, 0, 77]).mem.read 5 = ((machine [1, 0, 0, 5]).writeCell 5 77).mem.read 5 ∧
      EffAddr { machine [4, 2, 0, 0, 0, 77] with rb := 3 } 1 .relative 5 :=
  ⟨by decide, by decide, by decide, effAddr_of (by decide)⟩

/-- The sum at both ends of its range, and one past each. -/
theorem witness_SumIsExactOrOffByTwoTo64 :
    (9223372036854775806 : Word).toInt + (1 : Word).toInt = 2 ^ 63 - 1 ∧
      (-9223372036854775808 : Word).toInt + (0 : Word).toInt = -2 ^ 63 ∧
      2 ^ 63 = (9223372036854775807 : Word).toInt + (1 : Word).toInt ∧
      (-9223372036854775808 : Word).toInt + (-1 : Word).toInt < -2 ^ 63 := by decide

theorem witness_ProductIsExactModuloTwoTo64 :
    -2 ^ 63 = (-4611686018427387904 : Word).toInt * (2 : Word).toInt ∧
      (1 : Word).toInt * (9223372036854775807 : Word).toInt = 2 ^ 63 - 1 := by decide

/-! ### ADD, MUL, LT and EQ: one set of witnesses, their statements having the same hypotheses -/

/-- The destination is the last parameter's own cell, and IP + 4 is ADDR_MAX. -/
theorem witness_add_mul_lt_eq_complete :
    Mode.position ≠ Mode.immediate ∧ Operand (tiny 4 [1, 4, 4, 3, 20]) 1 .position 20 ∧
      Operand (tiny 4 [1, 4, 4, 3, 20]) 2 .immediate 4 ∧ EffAddr (tiny 4 [1, 4, 4, 3, 20]) 3 .position 3 ∧
      (tiny 4 [1, 4, 4, 3, 20]).ip + 4 ≤ (tiny 4 [1, 4, 4, 3, 20]).addrMax :=
  ⟨by decide, operand_of (by decide), operand_of (by decide), effAddr_of (by decide), by decide⟩

/-- A negative index, an index one above ADDR_MAX, and a parameter cell that does not exist. -/
theorem witness_add_mul_lt_eq_fault_slot1 :
    SlotFault (tiny 4 [1, -1, 0, 0]) 1 .position .negativeMemoryIndex ∧
      SlotFault (tiny 4 [201, 5, 0, 0]) 1 .relative .addressLimit ∧ SlotFault (tiny 0 [1]) 1 .immediate .addressLimit :=
  ⟨slotFault_of (by decide), slotFault_of (by decide), slotFault_of (by decide)⟩

theorem witness_add_mul_lt_eq_fault_slot2 :
    Operand (tiny 4 [1, 0, -1, 0]) 1 .position 1 ∧ SlotFault (tiny 4 [1, 0, -1, 0]) 2 .relative .negativeMemoryIndex :=
  ⟨operand_of (by decide), slotFault_of (by decide)⟩

theorem witness_add_mul_lt_eq_fault_slot3 :
    Operand (tiny 4 [1, 0, 0, 5]) 1 .position 1 ∧ Operand (tiny 4 [1, 0, 0, 5]) 2 .immediate 0 ∧
      SlotFault (tiny 4 [1, 0, 0, 5]) 3 .position .addressLimit :=
  ⟨operand_of (by decide), operand_of (by decide), writeFault_of (by decide) (by decide)⟩

theorem witness_add_mul_lt_eq_fault_next_ip :
    Operand (tiny 3 [1, 0, 0, 3]) 1 .position 1 ∧ Operand (tiny 3 [1, 0, 0, 3]) 2 .position 1 ∧
      EffAddr (tiny 3 [1, 0, 0, 3]) 3 .position 3 ∧ (tiny 3 [1, 0, 0, 3]).addrMax < (tiny 3 [1, 0, 0, 3]).ip + 4 :=
  ⟨operand_of (by decide), operand_of (by decide), effAddr_of (by decide), by decide⟩

/-- A canonical word of every opcode, for the clause `HasWords` of the ten result statements. -/
theorem witness_canonical_word_of_each_opcode :
    (Canonical 22101 ∧ (22101 : Word).toNat % 100 = 1) ∧ (Canonical 1102 ∧ (1102 : Word).toNat % 100 = 2) ∧
      (Canonical 203 ∧ (203 : Word).toNat % 100 = 3) ∧ (Canonical 104 ∧ (104 : Word).toNat % 100 = 4) ∧
      (Canonical 2105 ∧ (2105 : Word).toNat % 100 = 5) ∧ (Canonical 1006 ∧ (1006 : Word).toNat % 100 = 6) ∧
      (Canonical 21107 ∧ (21107 : Word).toNat % 100 = 7) ∧ (Canonical 1108 ∧ (1108 : Word).toNat % 100 = 8) ∧
      (Canonical 209 ∧ (209 : Word).toNat % 100 = 9) ∧ (Canonical 99 ∧ (99 : Word).toNat % 100 = 99) :=
  ⟨⟨⟨by decide, by decide, by decide⟩, by decide⟩, ⟨⟨by decide, by decide, by decide⟩, by decide⟩,
    ⟨⟨by decide, by decide, by decide⟩, by decide⟩, ⟨⟨by decide, by decide, by decide⟩, by decide⟩,
    ⟨⟨by decide, by decide, by decide⟩, by decide⟩, ⟨⟨by decide, by decide, by decide⟩, by decide⟩,
    ⟨⟨by decide, by decide, by decide⟩, by decide⟩, ⟨⟨by decide, by decide, by decide⟩, by decide⟩,
    ⟨⟨by decide, by decide, by decide⟩, by decide⟩, ⟨⟨by decide, by decide, by decide⟩, by decide⟩⟩

/-! ### ARB, OUT: the same hypotheses -/

theorem witness_arb_out_complete :
    Operand (tiny 2 [209, 1]) 1 .relative 1 ∧ (tiny 2 [209, 1]).ip + 2 ≤ (tiny 2 [209, 1]).addrMax :=
  ⟨operand_of (by decide), by decide⟩

theorem witness_arb_out_fault_slot1 : SlotFault (tiny 2 [9, 3]) 1 .position .addressLimit ∧
    SlotFault (tiny 2 [9, -1]) 1 .relative .negativeMemoryIndex :=
  ⟨slotFault_of (by decide), slotFault_of (by decide)⟩

theorem witness_arb_out_fault_next_ip :
    Operand (tiny 1 [109, 5]) 1 .immediate 5 ∧ (tiny 1 [109, 5]).addrMax < (tiny 1 [109, 5]).ip + 2 :=
  ⟨operand_of (by decide), by decide⟩

/-! ### IN -/

theorem witness_InStoresHeadOfQueue_completes :
    EffAddr { tiny 2 [3, 2] with inq := [7, 8] } 1 .position 2 ∧
      ({ tiny 2 [3, 2] with inq := [7, 8] } : State).ip + 2 ≤ (tiny 2 [3, 2]).addrMax ∧
      ({ tiny 2 [3, 2] with inq := [7, 8] } : State).inq = 7 :: [8] :=
  ⟨effAddr_of (by decide), by decide, rfl⟩

theorem witness_InStoresHeadOfQueue_fault_dst : Mode.position ≠ Mode.immediate ∧
    SlotFault (tiny 2 [3, 3]) 1 .position .addressLimit ∧ SlotFault (tiny 2 [203, -1]) 1 .relative .negativeMemoryIndex :=
  ⟨by decide, writeFault_of (by decide) (by decide), writeFault_of (by decide) (by decide)⟩

theorem witness_InStoresHeadOfQueue_fault_next_ip :
    EffAddr (tiny 1 [3, 0]) 1 .position 0 ∧ (tiny 1 [3, 0]).addrMax < (tiny 1 [3, 0]).ip + 2 :=
  ⟨effAddr_of (by decide), by decide⟩

theorem witness_InSuspendsOnEmptyQueue :
    EffAddr (tiny 2 [3, 2]) 1 .position 2 ∧ (tiny 2 [3, 2]).ip + 2 ≤ (tiny 2 [3, 2]).addrMax ∧ (tiny 2 [3, 2]).inq = [] :=
  ⟨effAddr_of (by decide), by decide, rfl⟩

/-! ### JT and JF: the statements differ in the condition, so each clause has an operand for either -/

/-- Jumps to ADDR_MAX itself: JT on -3, JF on 0. -/
theorem witness_jt_jf_taken :
    Operand (tiny 4 [1105, -3, 4]) 1 .immediate (-3) ∧ Operand (tiny 4 [1105, -3, 4]) 2 .immediate 4 ∧
      (-3 : Word) ≠ 0 ∧ (4 : Word).toInt = ((4 : Nat) : Int) ∧ 4 ≤ (tiny 4 [1105, -3, 4]).addrMax ∧
      Operand (tiny 4 [1106, 0, 4]) 1 .immediate 0 ∧ Operand (tiny 4 [1106, 0, 4]) 2 .immediate 4 ∧
      4 ≤ (tiny 4 [1106, 0, 4]).addrMax :=
  ⟨operand_of (by decide), operand_of (by decide), by decide, by decide, by decide, operand_of (by decide),
    operand_of (by decide), by decide⟩

/-- Not taken, IP + 3 being ADDR_MAX: JT on 0, JF on 1. -/
theorem witness_jt_jf_not_taken :
    Operand (tiny 3 [1105, 0, -1]) 1 .immediate 0 ∧ Operand (tiny 3 [1105, 0, -1]) 2 .immediate (-1) ∧
      ¬ (0 : Word) ≠ 0 ∧ (tiny 3 [1105, 0, -1]).ip + 3 ≤ (tiny 3 [1105, 0, -1]).addrMax ∧
      Operand (tiny 3 [1106, 1, -1]) 1 .immediate 1 ∧ Operand (tiny 3 [1106, 1, -1]) 2 .immediate (-1) ∧
      ¬ (1 : Word) = 0 ∧ (tiny 3 [1106, 1, -1]).ip + 3 ≤ (tiny 3 [1106, 1, -1]).addrMax :=
  ⟨operand_of (by decide), operand_of (by decide), by decide, by decide, operand_of (by decide), operand_of (by decide),
    by decide, by decide⟩

theorem witness_jt_jf_fault_slot1 : SlotFault (tiny 3 [5, -1, 0]) 1 .position .negativeMemoryIndex ∧
    SlotFault (tiny 3 [5, 4, 0]) 1 .position .addressLimit :=
  ⟨slotFault_of (by decide), slotFault_of (by decide)⟩

/-- Although neither jump would be taken: JT on 0, JF on 1. -/
theorem witness_jt_jf_fault_slot2 :
    Operand (tiny 3 [105, 0, -1]) 1 .immediate 0 ∧ SlotFault (tiny 3 [105, 0, -1]) 2 .position .negativeMemoryIndex ∧
      Operand (tiny 3 [106, 1, 4]) 1 .immediate 1 ∧ SlotFault (tiny 3 [106, 1, 4]) 2 .position .addressLimit :=
  ⟨operand_of (by decide), slotFault_of (by decide), operand_of (by decide), slotFault_of (by decide)⟩

/-- A target of -1 and one of ADDR_MAX + 1. -/
theorem witness_jt_jf_fault_taken :
    Operand (tiny 3 [1105, 1, -1]) 1 .immediate 1 ∧ Operand (tiny 3 [1105, 1, -1]) 2 .immediate (-1) ∧ (1 : Word) ≠ 0 ∧
      IndexFault (tiny 3 [1105, 1, -1]) (-1 : Word).toInt .negativeMemoryIndex ∧
      Operand (tiny 3 [1106, 0, 4]) 1 .immediate 0 ∧ Operand (tiny 3 [1106, 0, 4]) 2 .immediate 4 ∧
      IndexFault (tiny 3 [1106, 0, 4]) (4 : Word).toInt .addressLimit :=
  ⟨operand_of (by decide), operand_of (by decide), by decide, .inl ⟨by decide, rfl⟩, operand_of (by decide),
    operand_of (by decide), .inr ⟨by decide, rfl⟩⟩

theorem witness_jt_jf_fault_next_ip :
    Operand (tiny 2 [1105, 0, 0]) 1 .immediate 0 ∧ Operand (tiny 2 [1105, 0, 0]) 2 .immediate 0 ∧ ¬ (0 : Word) ≠ 0 ∧
      (tiny 2 [1105, 0, 0]).addrMax < (tiny 2 [1105, 0, 0]).ip + 3 ∧ Operand (tiny 2 [1106, 1, 0]) 1 .immediate 1 ∧
      Operand (tiny 2 [1106, 1, 0]) 2 .immediate 0 ∧ ¬ (1 : Word) = 0 ∧
      (tiny 2 [1106, 1, 0]).addrMax < (tiny 2 [1106, 1, 0]).ip + 3 :=
  ⟨operand_of (by decide), operand_of (by decide), by decide, by decide, operand_of (by decide), operand_of (by decide),
    by decide, by decide⟩

/-! ### Ill-formed instructions, frames -/

theorem witness_ImmediateWriteOperandNeverStores :
    (Instr.add .position .position .immediate).wf = false ∧ (Instr.inp .immediate).wf = false := by decide

/-- A store, and a destination that faults. -/
theorem witness_StoringInstructionsFrame :
    exec (.add .position .position .position) (machine [1, 4, 5, 6, 20, 22]) =
        .next (after (exec (.add .position .position .position) (machine [1, 4, 5, 6, 20, 22]))) ∧
      resolveWrite (machine [1, 4, 5, 6, 20, 22]) 3 .position = .ok 6 ∧
      exec (.eq .position .position .position) (machine [8, 4, 5, -1]) =
        .next (after (exec (.eq .position .position .position) (machine [8, 4, 5, -1]))) ∧
      resolveWrite (machine [8, 4, 5, -1]) 3 .position = .error .negativeMemoryIndex :=
  ⟨rfl, by decide, rfl, by decide⟩

theorem witness_InputInstructionFrame :
    exec (.inp .position) { machine [3, 6] with inq := [4] } =
        .next (after (exec (.inp .position) { machine [3, 6] with inq := [4] })) ∧
      resolveWrite { machine [3, 6] with inq := [4] } 1 .position = .ok 6 ∧
      exec (.inp .position) (machine [3, -1]) = .next (after (exec (.inp .position) (machine [3, -1]))) ∧
      resolveWrite (machine [3, -1]) 1 .position = .error .negativeMemoryIndex :=
  ⟨rfl, by decide, rfl, by decide⟩

/-- JT is neither ARB nor OUT. -/
theorem witness_NonStoringInstructionsFrame :
    (Instr.jt .immediate .immediate).writeSlot = none ∧
      exec (.jt .immediate .immediate) (machine [1105, 1, 9]) =
        .next (after (exec (.jt .immediate .immediate) (machine [1105, 1, 9]))) ∧
      (∀ a, Instr.jt .immediate .immediate ≠ .arb a) ∧ ∀ a, Instr.jt .immediate .immediate ≠ .out a :=
  ⟨rfl, rfl, nofun, nofun⟩

/-! ### The step -/

theorem witness_StepRunsDecodedInstruction_runs_on :
    (machine [109, 1]).busy = true ∧ (machine [109, 1]).ip ≤ (machine [109, 1]).addrMax ∧
      decode ((machine [109, 1]).mem.read (machine [109, 1]).ip) = .ok (.arb .immediate) ∧
      exec (.arb .immediate) (machine [109, 1]) = .next (after (exec (.arb .immediate) (machine [109, 1]))) ∧
      (after (exec (.arb .immediate) (machine [109, 1]))).busy = true :=
  ⟨rfl, by decide, by decide, rfl, by decide⟩

theorem witness_StepRunsDecodedInstruction_ends :
    decode ((machine [99]).mem.read (machine [99]).ip) = .ok .hlt ∧
      exec .hlt (machine [99]) = .next (machine [99]).halt ∧ (machine [99]).halt.busy = false ∧
      (machine [99]).halt.runResult = some (.halted []) :=
  ⟨by decide, rfl, rfl, rfl⟩

/-- One word for each of the three rejections. -/
theorem witness_RejectedWordTakesItsFault :
    (machine [0]).busy = true ∧ (machine [0]).ip ≤ (machine [0]).addrMax ∧
      decode ((machine [0]).mem.read (machine [0]).ip) = .error .unknownOpcode ∧
      decode ((machine [301]).mem.read (machine [301]).ip) = .error .invalidAddressingMode ∧
      decode ((machine [103]).mem.read (machine [103]).ip) = .error .invalidWriteTarget := by
  decide

theorem witness_StepAlwaysAnswersUnderInvariant_core : (machine [99]).Inv ∧ (machine [99]).busy = true :=
  ⟨machine_inv (by decide), rfl⟩

theorem witness_StepAlwaysAnswersUnderInvariant_host :
    (hosted [] [.reset [99]]).Inv ∧
      ∀ p rest, (hosted [] [.reset [99]]).pending = .reset p :: rest → p.length ≤ (hosted [] [.reset [99]]).addrMax + 1 :=
  ⟨hosted_inv (by decide) _, fun _ _ h => by cases h; decide⟩

theorem witness_StepKeepsInvariant :
    (machine [1, 4, 5, 6, 20, 22]).Inv ∧
      step (machine [1, 4, 5, 6, 20, 22]) = .next (after (step (machine [1, 4, 5, 6, 20, 22]))) :=
  ⟨machine_inv (by decide), rfl⟩

theorem witness_StepChangesOnlyTheDestinationCell :
    (machine [1, 4, 5, 6, 20, 22]).busy = true ∧
      step (machine [1, 4, 5, 6, 20, 22]) = .next (after (step (machine [1, 4, 5, 6, 20, 22]))) ∧
      (after (step (machine [1, 4, 5, 6, 20, 22]))).mem.read 6 ≠ (machine [1, 4, 5, 6, 20, 22]).mem.read 6 :=
  ⟨rfl, rfl, by decide⟩

/-- HLT ends the run, ARB advances, JT jumps. -/
theorem witness_IpAdvancesByLengthOrJumps :
    (step (machine [99]) = .next (after (step (machine [99]))) ∧ (after (step (machine [99]))).busy = false) ∧
      (decode ((machine [109, 1]).mem.read (machine [109, 1]).ip) = .ok (.arb .immediate) ∧
        step (machine [109, 1]) = .next (after (step (machine [109, 1]))) ∧
        (after (step (machine [109, 1]))).busy = true ∧
        ∀ a g, Instr.arb .immediate ≠ .jt a g ∧ Instr.arb .immediate ≠ .jf a g) ∧
      (decode ((machine [1105, 1, 9]).mem.read (machine [1105, 1, 9]).ip) = .ok (.jt .immediate .immediate) ∧
        step (machine [1105, 1, 9]) = .next (after (step (machine [1105, 1, 9]))) ∧
        (after (step (machine [1105, 1, 9]))).busy = true) :=
  ⟨⟨rfl, by decide⟩, ⟨by decide, rfl, by decide, fun _ _ => ⟨nofun, nofun⟩⟩, by decide, rfl, by decide⟩

/-- By ARB, and by the host's reset. -/
theorem witness_OnlyArbAndResetChangeRelativeBase :
    (step (machine [109, 19]) = .next (after (step (machine [109, 19]))) ∧
        (after (step (machine [109, 19]))).rb ≠ (machine [109, 19]).rb) ∧
      step { hosted [] [.reset []] with rb := 5 } = .next (after (step { hosted [] [.reset []] with rb := 5 })) ∧
        (after (step { hosted [] [.reset []] with rb := 5 })).rb ≠ 5 :=
  ⟨⟨rfl, by decide⟩, rfl, by decide⟩

/-- Halting, a reset after it, and a fault. -/
theorem witness_HaltedFlagSetOnlyByHltClearedOnlyByReset :
    ((machine [99]).Inv ∧ step (machine [99]) = .next (after (step (machine [99]))) ∧ (machine [99]).halted = false ∧
        (after (step (machine [99]))).halted = true) ∧
      ({ hosted [] [.reset []] with st := .halted } : State).Inv ∧
      (({ hosted [] [.reset []] with st := .halted } : State).busy = false ∧
        ({ hosted [] [.reset []] with st := .halted } : State).pending = .reset [] :: []) ∧
      (step { hosted [] [.reset []] with st := .halted } =
          .next (after (step { hosted [] [.reset []] with st := .halted })) ∧
        (after (step { hosted [] [.reset []] with st := .halted })).halted = false) ∧
      step (machine [0]) = .next (after (step (machine [0]))) ∧ (after (step (machine [0]))).st = .faulted :=
  ⟨⟨machine_inv (by decide), rfl, by decide, by decide⟩,
    ⟨by decide, by decide, by decide, by decide, by decide, by decide, by decide⟩, ⟨rfl, rfl⟩, ⟨rfl, by decide⟩, rfl,
    by decide⟩

theorem witness_FaultsArePrecise :
    (machine [1, -1, 0, 0]).Inv ∧ (machine [1, -1, 0, 0]).busy = true ∧
      step (machine [1, -1, 0, 0]) = .next (after (step (machine [1, -1, 0, 0]))) ∧
      (after (step (machine [1, -1, 0, 0]))).st = .faulted :=
  ⟨machine_inv (by decide), rfl, rfl, by decide⟩

/-- Halted, then a poke of cell 3 and a refused run. -/
theorem witness_StoppedMachineStaysStopped :
    ({ hosted [99] [.poke 3 7, .run []] with st := .halted } : State).Inv ∧
      NoReset { hosted [99] [.poke 3 7, .run []] with st := .halted } ∧
      RunsTo 2 { hosted [99] [.poke 3 7, .run []] with st := .halted }
        (steps 2 { hosted [99] [.poke 3 7, .run []] with st := .halted }) ∧
      NoPoke { hosted [99] [.poke 3 7, .run []] with st := .halted } 0 :=
  ⟨⟨by decide, by decide, by decide, by decide, by decide, by decide, by decide⟩, by simp [NoReset, hosted],
    ⟨_, rfl, _, rfl, rfl⟩, by simp [NoPoke, hosted]⟩

/-- The same for a faulted machine. -/
theorem witness_StoppedMachineStaysStopped_faulted :
    ({ hosted [0] [.run []] with st := .faulted, fk := some .unknownOpcode } : State).Inv ∧
      RunsTo 1 { hosted [0] [.run []] with st := .faulted, fk := some .unknownOpcode }
        (steps 1 { hosted [0] [.run []] with st := .faulted, fk := some .unknownOpcode }) :=
  ⟨⟨by decide, by decide, by decide, by decide, by decide, by decide, by decide⟩, _, rfl, rfl⟩

theorem witness_RunEndsExactlyWhenStatusLeavesRunning :
    (machine [99]).Inv ∧ (machine [99]).busy = true ∧ step (machine [99]) = .next (after (step (machine [99]))) :=
  ⟨machine_inv (by decide), rfl, rfl⟩

theorem witness_SuspensionOnlyAtInput :
    (machine [3, 0]).Inv ∧ (machine [3, 0]).busy = true ∧ step (machine [3, 0]) = .next (after (step (machine [3, 0]))) ∧
      (after (step (machine [3, 0]))).st = .awaitingInput :=
  ⟨machine_inv (by decide), rfl, rfl, by decide⟩

theorem witness_OutputsGrowAtTailInputsShrinkAtHead :
    ({ machine [3, 9, 104, 5, 99] with inq := [1, 2] } : State).pending = [] ∧
      RunsTo 2 { machine [3, 9, 104, 5, 99] with inq := [1, 2] }
        (steps 2 { machine [3, 9, 104, 5, 99] with inq := [1, 2] }) :=
  ⟨rfl, _, rfl, _, rfl, rfl⟩

theorem witness_CoreNeverReadsOutputs :
    exec (.out .immediate) (machine [104, 5]) = .next (after (exec (.out .immediate) (machine [104, 5]))) := rfl

theorem witness_RelativeBaseMattersOnlyToModeTwo :
    Mode.relative ∉ (Instr.add .position .immediate .position).modes ∧
      (∀ a, Instr.add .position .immediate .position ≠ .arb a) ∧
      exec (.add .position .immediate .position) (machine [1001, 4, 1, 5, 6]) =
        .next (after (exec (.add .position .immediate .position) (machine [1001, 4, 1, 5, 6]))) :=
  ⟨by decide, nofun, rfl⟩

/-- 90 + 9 is stored into cell 4, and is HLT. -/
theorem witness_StoreSeenByNextFetch :
    (machine [1101, 90, 9, 4]).Inv ∧ (machine [1101, 90, 9, 4]).busy = true ∧
      decode ((machine [1101, 90, 9, 4]).mem.read (machine [1101, 90, 9, 4]).ip) =
        .ok (.add .immediate .immediate .position) ∧
      Operand (machine [1101, 90, 9, 4]) 1 .immediate 90 ∧ Operand (machine [1101, 90, 9, 4]) 2 .immediate 9 ∧
      EffAddr (machine [1101, 90, 9, 4]) 3 .position ((machine [1101, 90, 9, 4]).ip + 4) ∧
      decode (wrap64 ((90 : Word).toInt + (9 : Word).toInt)) = .ok .hlt :=
  ⟨machine_inv (by decide), rfl, by decide, operand_of (by decide), operand_of (by decide), effAddr_of (by decide),
    by decide⟩

theorem witness_PlacedTableWordRunsNext :
    (hosted [99] []).Inv ∧ decodeTableWord 64 1101 = some (.add .immediate .immediate .position) :=
  ⟨hosted_inv (by decide) _, by decide⟩

/-! ### The host -/

/-- A run that goes on, one that waits, one that halts and one that faults. -/
theorem witness_RunReturnsOneResultByStatus :
    ((machine [109, 1]).Inv ∧ (machine [109, 1]).busy = true ∧
        step (machine [109, 1]) = .next (after (step (machine [109, 1]))) ∧ (after (step (machine [109, 1]))).busy = true) ∧
      (step (machine [3, 0]) = .next (after (step (machine [3, 0]))) ∧ (after (step (machine [3, 0]))).busy = false) ∧
      (step (machine [99]) = .next (after (step (machine [99]))) ∧ (after (step (machine [99]))).busy = false) ∧
      step (machine [0]) = .next (after (step (machine [0]))) ∧ (after (step (machine [0]))).busy = false :=
  ⟨⟨machine_inv (by decide), rfl, rfl, by decide⟩, ⟨rfl, by decide⟩, ⟨rfl, by decide⟩, rfl, by decide⟩

theorem witness_HostMakesNoMoveDuringRun :
    (step { machine [109, 1] with pending := [.poke 0 5] } =
        .next (after (step { machine [109, 1] with pending := [.poke 0 5] })) ∧
      ({ machine [109, 1] with pending := [.poke 0 5] } : State).busy = true) ∧
      step (hosted [99] [.run []]) = .next (after (step (hosted [99] [.run []]))) ∧ (hosted [99] [.run []]).busy = false :=
  ⟨⟨rfl, rfl⟩, rfl, rfl⟩

theorem witness_IdleMachineDoesNothing :
    (hosted [99] []).busy = false ∧ (hosted [99] []).pending = [] ∧ RunsTo 2 (hosted [99] []) (hosted [99] []) :=
  ⟨rfl, rfl, _, rfl, _, rfl, rfl⟩

/-- A program that fills the memory to its last cell. -/
theorem witness_HostResetConstructsMachine :
    ({ hosted [0] [.reset [3, 9]] with addrMax := 1, st := .faulted } : State).busy = false ∧
      ({ hosted [0] [.reset [3, 9]] with addrMax := 1, st := .faulted } : State).pending = .reset [3, 9] :: [] ∧
      [3, 9].length ≤ 1 + 1 :=
  ⟨rfl, rfl, by decide⟩

/-- A program one cell too long. -/
theorem witness_HostResetWithTooLongProgramStops :
    ({ hosted [0] [.reset [3, 9]] with addrMax := 0 } : State).busy = false ∧
      ({ hosted [0] [.reset [3, 9]] with addrMax := 0 } : State).pending = .reset [3, 9] :: [] ∧ 0 + 1 < [3, 9].length :=
  ⟨rfl, rfl, by decide⟩

/-- The last cell, and the indices next to both ends. -/
theorem witness_HostPokeWritesOneCell :
    (hosted [] [.poke 9223372036854775807 5]).mem.wf = true ∧ (hosted [] [.poke 9223372036854775807 5]).busy = false ∧
      (hosted [] [.poke 9223372036854775807 5]).pending = .poke 9223372036854775807 5 :: [] ∧
      (9223372036854775807 : Int) = ((9223372036854775807 : Nat) : Int) ∧
      9223372036854775807 ≤ (hosted [] [.poke 9223372036854775807 5]).addrMax ∧
      (hosted [] [.poke (-1) 5]).pending = .poke (-1) 5 :: [] ∧ (-1 : Int) < 0 ∧
      (hosted [] [.poke 9223372036854775808 5]).pending = .poke 9223372036854775808 5 :: [] ∧
      ((hosted [] [.poke 9223372036854775808 5]).addrMax : Int) < 9223372036854775808 := by
  decide

/-- A first run, and a run of a machine that waits for input. -/
theorem witness_HostRunBegins :
    ((hosted [99] [.run [4]]).busy = false ∧ (hosted [99] [.run [4]]).pending = .run [4] :: [] ∧
        (hosted [99] [.run [4]]).st = .running) ∧
      ({ hosted [3, 0] [.run [4]] with st := .awaitingInput } : State).st = .awaitingInput :=
  ⟨⟨rfl, rfl, rfl⟩, rfl⟩

theorem witness_HostRunRefusedAfterHaltOrFault :
    ({ hosted [99] [.run [7]] with st := .halted } : State).busy = false ∧
      ({ hosted [99] [.run [7]] with st := .halted } : State).pending = .run [7] :: [] ∧
      ({ hosted [99] [.run [7]] with st := .halted } : State).st = .halted ∧
      ({ hosted [0] [.run [1]] with st := .faulted, fk := some .unknownOpcode } : State).st = .faulted :=
  ⟨rfl, rfl, rfl, rfl⟩

/-- `3, 0, 4, 0, 99` (R220): run with no input waits, run with 5 then halts. -/
theorem witness_SplitInputsRunLikeOneRun :
    (hosted [3, 0, 4, 0, 99] []).busy = false ∧
      RunsTo 2 { hosted [3, 0, 4, 0, 99] [] with pending := [.run []] }
        (steps 2 { hosted [3, 0, 4, 0, 99] [] with pending := [.run []] }) ∧
      (steps 2 (hosted [3, 0, 4, 0, 99] [.run []])).st = .awaitingInput ∧
      (steps 2 (hosted [3, 0, 4, 0, 99] [.run []])).pending = [] ∧
      (steps 2 (hosted [3, 0, 4, 0, 99] [.run []])).busy = false ∧
      RunsTo 4 { steps 2 (hosted [3, 0, 4, 0, 99] [.run []]) with pending := [.run [5]] }
        (steps 4 { steps 2 (hosted [3, 0, 4, 0, 99] [.run []]) with pending := [.run [5]] }) ∧
      (steps 4 { steps 2 (hosted [3, 0, 4, 0, 99] [.run []]) with pending := [.run [5]] }).pending = [] ∧
      (steps 4 { steps 2 (hosted [3, 0, 4, 0, 99] [.run []]) with pending := [.run [5]] }).busy = false :=
  ⟨rfl, ⟨_, rfl, _, rfl, rfl⟩, by decide, by decide, by decide, ⟨_, rfl, _, rfl, _, rfl, _, rfl, rfl⟩, by decide,
    by decide⟩

end Sys2Proof.Machine.Tests
end

section
/-! SUPPORT. The halted flag through the host's move and the core's step, and the obligation about it.

Spec: 10_state.md R25, R26; 44_control_transfer.md R193; 60_exceptions.md R238; 70_reset_and_hazards.md R270. -/

namespace Sys2Proof.Machine

/-! ## The flag as a reading of ST -/

theorem State.halted_iff {s : State} : s.halted = true ↔ s.st = .halted := beq_iff_eq

theorem State.halted_eq_false_iff {s : State} : s.halted = false ↔ s.st ≠ .halted := beq_eq_false_iff_ne

/-! ## What sets and clears it -/

/-- Of a running machine's instructions HLT alone leaves ST = Halted (R193); a fault leaves ST = Faulted (R238). -/
theorem Effect.st_eq_halted_iff {i : Instr} {s t : State} (hst : s.st = .running) (h : Effect i s t) :
    t.st = .halted ↔ i = .hlt := by
  cases h with
  | stored _ _ _ _ hslot =>
    have hne : i ≠ .hlt := by
      rintro rfl
      cases hslot
    simp [hst, hne]
  | consumed _ _ _ _ hi => simp [hst, hi]
  | suspended _ _ hi => simp [hi]
  | pushed _ _ hi => simp [hst, hi]
  | jumped _ _ _ _ hi => obtain rfl | rfl := hi <;> simp [hst]
  | adjusted _ _ hi => simp [hst, hi]
  | halted hi => simp [hi]
  | faulted _ hi => simp [hi]

/-- A step of the core from ST = Running ends in ST = Halted exactly when the word at IP is HLT. -/
theorem step_busy_halted_iff {s t : State} (hb : s.busy = true) (hst : s.st = .running) (h : step s = .next t) :
    t.halted = true ↔ decode (s.mem.read s.ip) = .ok .hlt := by
  obtain ⟨-, ⟨r, hd, rfl⟩ | ⟨i, u, hd, hu, rfl⟩⟩ := step_busy_cases hb h
  · simp [State.halted_iff, hd]
  · simp [State.halted_iff, hd, (exec_effect hu).st_eq_halted_iff hst]

/-- The host's reset clears the flag (R37, R270), and no other move of the host changes it: a run begins only where it is clear. -/
theorem step_idle_halted {s t : State} (hb : s.busy = false) (h : step s = .next t) :
    ((∃ p rest, s.pending = .reset p :: rest) ∧ t.halted = false) ∨
      ((∀ p rest, s.pending ≠ .reset p :: rest) ∧ t.halted = s.halted) := by
  obtain ⟨hp, rfl⟩ | ⟨p, rest, hp, -, rfl⟩ | ⟨a, v, rest, hp, -, rfl⟩ | ⟨inputs, rest, hp, hst, rfl⟩ |
    ⟨c, rest, r, hp, hc, rfl⟩ := step_idle_cases hb h
  · exact .inr ⟨by simp [hp], rfl⟩
  · exact .inl ⟨⟨p, rest, hp⟩, rfl⟩
  · exact .inr ⟨by simp [hp], rfl⟩
  · have hs : s.halted = false := State.halted_eq_false_iff.2 (by obtain hst | hst := hst <;> simp [hst])
    exact .inr ⟨by simp [hp], hs.symm⟩
  · exact .inr ⟨by simp [hp, hc], rfl⟩

/-! ## The obligation -/

/-- Settles O38: the invariant gives ST = Running while the core steps, so the flag is clear there and only HLT sets it; while the
core is idle only the host's reset changes it. -/
theorem haltedFlagSetOnlyByHltClearedOnlyByReset : Obligations.HaltedFlagSetOnlyByHltClearedOnlyByReset := by
  intro s t hinv h
  have hfault : t.st = .faulted → t.halted = false := fun hf => State.halted_eq_false_iff.2 (by simp [hf])
  cases hb : s.busy with
  | true =>
    have hst := hinv.running_of_busy hb
    have hs : s.halted = false := State.halted_eq_false_iff.2 (by simp [hst])
    exact ⟨fun _ ht => ⟨rfl, (step_busy_halted_iff hb hst h).1 ht⟩, by simp [hs], hfault, nofun, rfl, State.halted_iff⟩
  | false =>
    obtain ⟨hreset, ht⟩ | ⟨hno, ht⟩ := step_idle_halted hb h
    · exact ⟨by simp [ht], fun _ _ => ⟨rfl, hreset⟩, hfault, fun _ _ _ _ => ht, rfl, State.halted_iff⟩
    · exact ⟨fun hs hh => by simp [ht, hs] at hh, fun hs hh => by simp [ht, hs] at hh, hfault,
        fun _ p rest hp => absurd hp (hno p rest), rfl, State.halted_iff⟩

end Sys2Proof.Machine
end

section
/-! SUPPORT. A stored value through the resolver, and the obligation about it.

Spec: 41_addressing_resolver.md R132, R134, R145; 20_memory.md R72. -/

namespace Sys2Proof.Machine

/-- A read operand that addresses a cell answers what the cell holds (R132, R134): RB, IP, slot and mode matter only through the
effective address. -/
theorem EffAddr.resolveRead {s : State} {i : Nat} {m : Mode} {ea : Nat} (h : EffAddr s i m ea) :
    resolveRead s i m = .ok (s.mem.read ea) :=
  resolveRead_ok.2 (.inr ⟨ea, h, rfl⟩)

/-- Settles O9: the read answers the cell at the effective address, and in a canonical memory that cell holds what was stored. -/
theorem storedValueReadBackThroughAnyMode : Obligations.StoredValueReadBackThroughAnyMode := by
  intro s t i j m m' ea v hwf _ hcell haddr
  have hstored : (s.writeCell ea v).mem.read ea = v := by
    rw [State.writeCell_mem, Memory.read_write_same hwf]
  rw [haddr.resolveRead, hcell, hstored]

end Sys2Proof.Machine
end

section
/-! SUPPORT. The ALU's comparisons read off the signed integers, and the obligation about them.

Spec: 42_alu.md R150, R153, R154, R158. -/

namespace Sys2Proof.Machine

@[simp] theorem aluLt_eq_one_iff {x y : Word} : aluLt x y = 1 ↔ x.toInt < y.toInt := by
  unfold aluLt
  split <;> simp [*]

@[simp] theorem aluLt_eq_zero_iff {x y : Word} : aluLt x y = 0 ↔ y.toInt ≤ x.toInt := by
  rw [← not_lt, aluLt]
  split <;> simp [*]

@[simp] theorem aluEq_eq_one_iff {x y : Word} : aluEq x y = 1 ↔ x.toInt = y.toInt := by
  unfold aluEq
  split <;> simp [*]

@[simp] theorem aluEq_eq_zero_iff {x y : Word} : aluEq x y = 0 ↔ x.toInt ≠ y.toInt := by
  unfold aluEq
  split <;> simp [*]

theorem aluEq_comm (x y : Word) : aluEq x y = aluEq y x := by
  simp only [aluEq, eq_comm]

/-- R158: exactly one of lt(x, y), eq(x, y), lt(y, x) is 1, by the trichotomy of the signed integers. -/
theorem alu_trichotomy (x y : Word) :
    (aluLt x y = 1 ∧ aluEq x y = 0 ∧ aluLt y x = 0) ∨ (aluLt x y = 0 ∧ aluEq x y = 1 ∧ aluLt y x = 0) ∨
      (aluLt x y = 0 ∧ aluEq x y = 0 ∧ aluLt y x = 1) := by
  obtain hlt | heq | hgt := lt_trichotomy x.toInt y.toInt
  · exact .inl ⟨aluLt_eq_one_iff.2 hlt, aluEq_eq_zero_iff.2 hlt.ne, aluLt_eq_zero_iff.2 hlt.le⟩
  · exact .inr (.inl ⟨aluLt_eq_zero_iff.2 heq.ge, aluEq_eq_one_iff.2 heq, aluLt_eq_zero_iff.2 heq.le⟩)
  · exact .inr (.inr ⟨aluLt_eq_zero_iff.2 hgt.le, aluEq_eq_zero_iff.2 hgt.ne', aluLt_eq_one_iff.2 hgt⟩)

/-- Settles O13: each result is 1 or 0 as its comparison holds or not, and the signed integers are linearly ordered. -/
theorem comparisonsAreSignedAndTrichotomous : Obligations.ComparisonsAreSignedAndTrichotomous := by
  intro x y
  have hlt : aluLt x y = 1 ∨ aluLt x y = 0 := by
    rw [aluLt_eq_one_iff, aluLt_eq_zero_iff]
    exact lt_or_ge _ _
  have heq : aluEq x y = 1 ∨ aluEq x y = 0 := by
    rw [aluEq_eq_one_iff, aluEq_eq_zero_iff]
    exact eq_or_ne _ _
  exact ⟨hlt, heq, aluLt_eq_one_iff, aluEq_eq_one_iff, aluLt_eq_zero_iff.2 le_rfl, aluEq_comm x y, alu_trichotomy x y⟩

end Sys2Proof.Machine
end

section
/-! SUPPORT. The decoder as one equivalence, the decimal digits of the words it accepts, and the first illegal mode digit of the words
it rejects; the obligations about encoding.

Spec: 30_encoding.md R81 to R99. -/

namespace Sys2Proof.Machine

/-! ## What the decoder accepts -/

@[simp] theorem readMode_ok {d : Nat} {m : Mode} : readMode d = .ok m ↔ d = m.digit := by
  unfold readMode
  split <;> cases m <;> simp_all [Mode.digit]

@[simp] theorem writeMode_ok {d : Nat} {m : Mode} : writeMode d = .ok m ↔ d = m.digit ∧ m.writable = true := by
  unfold writeMode
  split <;> cases m <;> simp_all [Mode.digit, Mode.writable]

theorem decodeReadReadWrite_ok {w : Nat} {mk : Mode → Mode → Mode → Instr} {i : Instr} :
    decodeReadReadWrite w mk = .ok i ↔ ∃ a b dst, mk a b dst = i ∧ digit w 2 = a.digit ∧ digit w 3 = b.digit ∧
      digit w 4 = dst.digit ∧ dst.writable = true := by
  simp only [decodeReadReadWrite, except_bind_eq_ok, except_pure_eq_ok, readMode_ok, writeMode_ok]
  grind

theorem decodeReadRead_ok {w : Nat} {mk : Mode → Mode → Instr} {i : Instr} :
    decodeReadRead w mk = .ok i ↔ ∃ a target, mk a target = i ∧ digit w 2 = a.digit ∧ digit w 3 = target.digit := by
  simp only [decodeReadRead, except_bind_eq_ok, except_pure_eq_ok, readMode_ok]
  grind

theorem decodeRead_ok {w : Nat} {mk : Mode → Instr} {i : Instr} :
    decodeRead w mk = .ok i ↔ ∃ a, mk a = i ∧ digit w 2 = a.digit := by
  simp only [decodeRead, except_bind_eq_ok, except_pure_eq_ok, readMode_ok]
  grind

theorem decodeWrite_ok {w : Nat} {mk : Mode → Instr} {i : Instr} :
    decodeWrite w mk = .ok i ↔ ∃ dst, mk dst = i ∧ digit w 2 = dst.digit ∧ dst.writable = true := by
  simp only [decodeWrite, except_bind_eq_ok, except_pure_eq_ok, writeMode_ok]
  grind

theorem opcode_of_decodeNat {w : Nat} {i : Instr} (h : decodeNat w = .ok i) : w % 100 = i.opcode := by
  have rrw {mk : Mode → Mode → Mode → Instr} (h : decodeReadReadWrite w mk = .ok i)
      (hmk : ∀ a b dst, w % 100 = (mk a b dst).opcode) : w % 100 = i.opcode := by
    obtain ⟨a, b, dst, rfl, -⟩ := decodeReadReadWrite_ok.1 h
    exact hmk a b dst
  have rr {mk : Mode → Mode → Instr} (h : decodeReadRead w mk = .ok i)
      (hmk : ∀ a target, w % 100 = (mk a target).opcode) : w % 100 = i.opcode := by
    obtain ⟨a, target, rfl, -⟩ := decodeReadRead_ok.1 h
    exact hmk a target
  have r {mk : Mode → Instr} (h : decodeRead w mk = .ok i) (hmk : ∀ a, w % 100 = (mk a).opcode) :
      w % 100 = i.opcode := by
    obtain ⟨a, rfl, -⟩ := decodeRead_ok.1 h
    exact hmk a
  unfold decodeNat at h
  split at h
  case h_1 hop => exact rrw h fun _ _ _ => hop
  case h_2 hop => exact rrw h fun _ _ _ => hop
  case h_3 hop =>
    obtain ⟨dst, rfl, -⟩ := decodeWrite_ok.1 h
    exact hop
  case h_4 hop => exact r h fun _ => hop
  case h_5 hop => exact rr h fun _ _ => hop
  case h_6 hop => exact rr h fun _ _ => hop
  case h_7 hop => exact rrw h fun _ _ _ => hop
  case h_8 hop => exact rrw h fun _ _ _ => hop
  case h_9 hop => exact r h fun _ => hop
  case h_10 hop =>
    cases h
    exact hop
  case h_11 => cases h

/-- The decimal digits of `w` say `i`: its opcode and the mode digits of its slots, none of which is illegal (R81, R83, R87). -/
def Spells (w : Nat) (i : Instr) : Prop :=
  w % 100 = i.opcode ∧ i.wf = true ∧ ∀ k m, i.modes[k]? = some m → digit w (k + 2) = m.digit

theorem forall_getElem?_cons {α : Type} {P : Nat → α → Prop} {a : α} {l : List α} :
    (∀ k m, (a :: l)[k]? = some m → P k m) ↔ P 0 a ∧ ∀ k m, l[k]? = some m → P (k + 1) m := by
  constructor
  · exact fun h => ⟨h 0 a rfl, fun k m => h (k + 1) m⟩
  · rintro ⟨h0, hs⟩ (_ | k) m hk
    · exact Option.some.inj hk ▸ h0
    · exact hs k m hk

theorem decodeNat_ok {w : Nat} {i : Instr} : decodeNat w = .ok i ↔ Spells w i := by
  by_cases hop : w % 100 = i.opcode
  · unfold Spells
    cases i <;> simp only [Instr.opcode] at hop <;>
      simp [decodeNat, hop, Instr.opcode, Instr.wf, Instr.modes, forall_getElem?_cons, decodeReadReadWrite_ok,
        decodeReadRead_ok, decodeRead_ok, decodeWrite_ok, and_comm, and_assoc]
  · exact ⟨fun h => absurd (opcode_of_decodeNat h) hop, fun h => absurd h.1 hop⟩

/-- The decoder answers exactly the instruction that the digits of a non-negative word say (R98). -/
theorem decode_ok {w : Word} {i : Instr} : decode w = .ok i ↔ 0 ≤ w.toInt ∧ Spells w.toNat i := by
  unfold decode
  split
  · next h => simp [h]
  · next h => rw [decodeNat_ok, and_iff_right (not_lt.1 h)]

/-! ## Rows of the table -/

/-- The row of an instruction is in the table. -/
theorem row_mem_opcodeMap (i : Instr) : (⟨i.opcode, i.modes.length, i.writeSlot⟩ : OpcodeRow) ∈ opcodeMap := by
  cases i <;> simp [opcodeMap, Instr.opcode, Instr.modes, Instr.writeSlot]

theorem row_eq_of_op_eq {r r' : OpcodeRow} (hr : r ∈ opcodeMap) (hr' : r' ∈ opcodeMap) (h : r.op = r'.op) : r = r' := by
  have hdistinct : ∀ x ∈ opcodeMap, ∀ y ∈ opcodeMap, x.op = y.op → x = y := by decide
  exact hdistinct r hr r' hr' h

/-- A row with an instruction's opcode is that instruction's row. -/
theorem row_of_opcode {r : OpcodeRow} {i : Instr} (hr : r ∈ opcodeMap) (h : r.op = i.opcode) :
    r.params = i.modes.length ∧ r.writeSlot = i.writeSlot := by
  obtain rfl := row_eq_of_op_eq hr (row_mem_opcodeMap i) h
  exact ⟨rfl, rfl⟩

theorem modes_length_le_three (i : Instr) : i.modes.length ≤ 3 := by
  cases i <;> simp [Instr.modes]

/-! ## What the decoder rejects -/

/-- The rejection that a decoding answers, if it is one. -/
def rejection {α : Type} : Except Rejection α → Option Rejection
  | .error e => some e
  | .ok _ => none

@[simp] theorem rejection_ok {α : Type} (a : α) : rejection (.ok a) = none := rfl

theorem rejection_eq_some {α : Type} {x : Except Rejection α} {e : Rejection} : rejection x = some e ↔ x = .error e := by
  cases x <;> simp [rejection]

theorem rejection_eq_none {α : Type} {x : Except Rejection α} : rejection x = none ↔ ∃ a, x = .ok a := by
  cases x <;> simp [rejection]

/-- Of two checks in a row the first that fails names the rejection. -/
theorem rejection_bind {α β : Type} {x : Except Rejection α} {f : α → Except Rejection β} {o : Option Rejection}
    (hf : ∀ a, rejection (f a) = o) : rejection (x >>= f) = (rejection x).or o := by
  cases x with
  | ok a => simp [hf]
  | error e => rfl

theorem rejection_readMode {r : OpcodeRow} {w k : Nat} (h : r.writeSlot ≠ some k) :
    rejection (readMode (digit w (k + 1))) = slotReject r w k := by
  unfold slotReject
  generalize digit w (k + 1) = d
  match d with
  | 0 | 1 | 2 => simp [readMode, h]
  | d + 3 => simp [readMode, rejection]

theorem rejection_writeMode {r : OpcodeRow} {w k : Nat} (h : r.writeSlot = some k) :
    rejection (writeMode (digit w (k + 1))) = slotReject r w k := by
  unfold slotReject
  generalize digit w (k + 1) = d
  match d with
  | 0 | 1 | 2 => simp [writeMode, rejection, h]
  | d + 3 => simp [writeMode, rejection]

/-- What is wrong with the first of a row's slots that is wrong, in the order 1, 2, 3. -/
def firstReject (r : OpcodeRow) (w : Nat) : Option Rejection := (List.range' 1 r.params).findSome? (slotReject r w)

theorem findSome?_cons_eq_or {α β : Type} (f : α → Option β) (a : α) (l : List α) :
    (a :: l).findSome? f = (f a).or (l.findSome? f) := by
  rw [List.findSome?_cons]
  cases f a <;> rfl

theorem rejection_decodeReadReadWrite (op w : Nat) (mk : Mode → Mode → Mode → Instr) :
    rejection (decodeReadReadWrite w mk) = firstReject ⟨op, 3, some 3⟩ w := by
  refine (rejection_bind fun _ => rejection_bind fun _ => rejection_bind fun _ => rejection_ok _).trans ?_
  rw [rejection_readMode (r := ⟨op, 3, some 3⟩) (by simp), rejection_readMode (r := ⟨op, 3, some 3⟩) (by simp),
    rejection_writeMode (r := ⟨op, 3, some 3⟩) rfl]
  simp only [firstReject, List.range', findSome?_cons_eq_or, List.findSome?_nil]

theorem rejection_decodeReadRead (op w : Nat) (mk : Mode → Mode → Instr) :
    rejection (decodeReadRead w mk) = firstReject ⟨op, 2, none⟩ w := by
  refine (rejection_bind fun _ => rejection_bind fun _ => rejection_ok _).trans ?_
  rw [rejection_readMode (r := ⟨op, 2, none⟩) (by simp), rejection_readMode (r := ⟨op, 2, none⟩) (by simp)]
  simp only [firstReject, List.range', findSome?_cons_eq_or, List.findSome?_nil]

theorem rejection_decodeRead (op w : Nat) (mk : Mode → Instr) :
    rejection (decodeRead w mk) = firstReject ⟨op, 1, none⟩ w := by
  refine (rejection_bind fun _ => rejection_ok _).trans ?_
  rw [rejection_readMode (r := ⟨op, 1, none⟩) (by simp)]
  simp only [firstReject, List.range', findSome?_cons_eq_or, List.findSome?_nil]

theorem rejection_decodeWrite (op w : Nat) (mk : Mode → Instr) :
    rejection (decodeWrite w mk) = firstReject ⟨op, 1, some 1⟩ w := by
  refine (rejection_bind fun _ => rejection_ok _).trans ?_
  rw [rejection_writeMode (r := ⟨op, 1, some 1⟩) rfl]
  simp only [firstReject, List.range', findSome?_cons_eq_or, List.findSome?_nil]

/-- The decoder reports the first wrong slot of a word's row (R98; decision D8). -/
theorem rejection_decode {w : Word} {r : OpcodeRow} (hr : r ∈ opcodeMap) (hw : 0 ≤ w.toInt) (hop : w.toNat % 100 = r.op) :
    rejection (decode w) = firstReject r w.toNat := by
  rw [decode, if_neg (not_lt.2 hw)]
  simp only [opcodeMap, List.mem_cons, List.not_mem_nil, or_false] at hr
  unfold decodeNat
  obtain rfl | rfl | rfl | rfl | rfl | rfl | rfl | rfl | rfl | rfl := hr <;> rw [hop]
  · exact rejection_decodeReadReadWrite ..
  · exact rejection_decodeReadReadWrite ..
  · exact rejection_decodeWrite ..
  · exact rejection_decodeRead ..
  · exact rejection_decodeReadRead ..
  · exact rejection_decodeReadRead ..
  · exact rejection_decodeReadReadWrite ..
  · exact rejection_decodeReadReadWrite ..
  · exact rejection_decodeRead ..
  · rfl

/-- The first slot that is wrong, by its number. -/
theorem findSome?_range'_eq_some {α : Type} {f : Nat → Option α} {a n : Nat} {x : α} :
    (List.range' a n).findSome? f = some x ↔
      ∃ i, a ≤ i ∧ i < a + n ∧ f i = some x ∧ ∀ j, a ≤ j → j < i → f j = none := by
  induction n generalizing a with
  | zero => simp; omega
  | succ n ih =>
    rw [List.range'_succ, findSome?_cons_eq_or, Option.or_eq_some_iff, ih]
    constructor
    · rintro (h | ⟨ha, i, hi, hn, hx, hbefore⟩)
      · exact ⟨a, le_rfl, by omega, h, fun j hj hj' => by omega⟩
      · refine ⟨i, by omega, by omega, hx, fun j hj hj' => ?_⟩
        obtain rfl | hlt := hj.eq_or_lt
        · exact ha
        · exact hbefore j hlt hj'
    · rintro ⟨i, hi, hn, hx, hbefore⟩
      obtain rfl | hlt := hi.eq_or_lt
      · exact .inl hx
      · exact .inr ⟨hbefore a le_rfl hlt, i, hlt, by omega, hx, fun j hj => hbefore j (by omega)⟩

theorem firstReject_eq_some {r : OpcodeRow} {w : Nat} {e : Rejection} :
    firstReject r w = some e ↔ ∃ i, 1 ≤ i ∧ i ≤ r.params ∧ slotReject r w i = some e ∧
      ∀ j, 1 ≤ j → j < i → slotReject r w j = none := by
  simp only [firstReject, findSome?_range'_eq_some, Nat.lt_one_add_iff]

theorem firstReject_eq_none {r : OpcodeRow} {w : Nat} :
    firstReject r w = none ↔ ∀ j, 1 ≤ j → j ≤ r.params → slotReject r w j = none := by
  simp only [firstReject, List.findSome?_eq_none_iff, List.mem_range'_1, Nat.lt_one_add_iff, and_imp]

theorem firstReject_congr {r : OpcodeRow} {w w' : Nat}
    (h : ∀ k, 1 ≤ k → k ≤ r.params → slotReject r w k = slotReject r w' k) : firstReject r w = firstReject r w' := by
  rw [firstReject, firstReject, ← List.head?_filterMap, ← List.head?_filterMap]
  refine congrArg List.head? (List.filterMap_congr fun k hk => ?_)
  rw [List.mem_range'_1] at hk
  exact h k hk.1 (by omega)

/-- An existing slot is wrong by its addressing mode, or it is the write slot and immediate (R87, R88). -/
theorem slotReject_eq_some {r : OpcodeRow} {w k : Nat} {e : Rejection} (h : slotReject r w k = some e) :
    e = .invalidAddressingMode ∨ e = .invalidWriteTarget ∧ r.writeSlot = some k := by
  unfold slotReject at h
  split at h
  · exact .inl (Option.some.inj h).symm
  · split at h
    · next hslot => exact .inr ⟨(Option.some.inj h).symm, hslot.1⟩
    · cases h

/-- A word of a row is rejected for a reason that one of its slots has. -/
theorem reject_of_row {w : Word} {r : OpcodeRow} {e : Rejection} (hr : r ∈ opcodeMap) (hw : 0 ≤ w.toInt)
    (hop : w.toNat % 100 = r.op) (h : decode w = .error e) :
    ∃ k, 1 ≤ k ∧ k ≤ r.params ∧ slotReject r w.toNat k = some e := by
  rw [← rejection_eq_some, rejection_decode hr hw hop, firstReject_eq_some] at h
  obtain ⟨k, hk, hk', he, -⟩ := h
  exact ⟨k, hk, hk', he⟩

/-! ## The obligations -/

/-- Settles O4: a decoding is an instruction or a rejection, and the rejection is that of the first wrong slot. -/
theorem modeDigitsCheckedInSlotOrder : Obligations.ModeDigitsCheckedInSlotOrder := by
  intro w r hr hw hop
  refine ⟨fun e => ?_, ?_⟩
  · rw [← rejection_eq_some, rejection_decode hr hw hop, firstReject_eq_some]
  · rw [← rejection_eq_none, rejection_decode hr hw hop, firstReject_eq_none]

/-- Settles O3: within a row only a slot is rejected, never for its opcode; outside the table nothing else is answered. -/
theorem unknownOpcodeExactlyOutsideTable : Obligations.UnknownOpcodeExactlyOutsideTable := by
  intro w
  constructor
  · intro h
    by_contra! hno
    obtain ⟨hw, r, hr, hop⟩ := hno
    obtain ⟨k, -, -, he⟩ := reject_of_row hr hw hop.symm h
    obtain he | ⟨he, -⟩ := slotReject_eq_some he <;> cases he
  · rintro (hneg | hout)
    · exact if_pos hneg
    · unfold decode
      split
      · rfl
      · simp only [opcodeMap, List.forall_mem_cons] at hout
        unfold decodeNat
        split
        case h_11 => rfl
        all_goals omega

/-- Settles O5: the digits of a word say what it decodes to, and the row is that of the instruction. -/
theorem decodedInstructionFollowsDigits : Obligations.DecodedInstructionFollowsDigits := by
  intro w i h
  obtain ⟨hw, hop, hwf, hmodes⟩ := decode_ok.1 h
  exact ⟨hwf, hw, hop.symm, _, row_mem_opcodeMap i, rfl, Nat.add_comm .., rfl, hmodes⟩

/-- Settles O6: a row's instructions and its rejections are both read off the digits of its slots. -/
theorem onlyExaminedDigitsMatter : Obligations.OnlyExaminedDigitsMatter := by
  intro w w' r hr hw hw' hop hop' hdigits
  have hok {v v' : Word} {i : Instr} (hv' : 0 ≤ v'.toInt) (hopv : v.toNat % 100 = r.op) (hopv' : v'.toNat % 100 = r.op)
      (hd : ∀ k, 1 ≤ k → k ≤ r.params → digit v.toNat (k + 1) = digit v'.toNat (k + 1)) (h : decode v = .ok i) :
      decode v' = .ok i := by
    obtain ⟨-, hopi, hwf, hmodes⟩ := decode_ok.1 h
    refine decode_ok.2 ⟨hv', by rw [hopv', ← hopv, hopi], hwf, fun k m hk => ?_⟩
    have hlen : k < i.modes.length := (List.getElem?_eq_some_iff.1 hk).1
    rw [← hd (k + 1) (by omega) (by rw [(row_of_opcode hr (hopv.symm.trans hopi)).1]; omega)]
    exact hmodes k m hk
  have hreject : rejection (decode w) = rejection (decode w') := by
    rw [rejection_decode hr hw hop, rejection_decode hr hw' hop']
    exact firstReject_congr fun k hk hk' => by rw [slotReject, slotReject, hdigits k hk hk']
  cases h : decode w with
  | ok i => exact (hok hw' hop hop' hdigits h).symm
  | error e =>
    rw [h] at hreject
    exact (rejection_eq_some.1 hreject.symm).symm

/-! ## The encoder -/

theorem encodeShape (i : Instr) : Laws.EncodeShape.Statement i := by
  cases i with
  | add a b dst => exact Laws.EncodeShape.add a b dst
  | mul a b dst => exact Laws.EncodeShape.mul a b dst
  | inp dst => exact Laws.EncodeShape.inp dst
  | out a => exact Laws.EncodeShape.out a
  | jt a target => exact Laws.EncodeShape.jt a target
  | jf a target => exact Laws.EncodeShape.jf a target
  | lt a b dst => exact Laws.EncodeShape.lt a b dst
  | eq a b dst => exact Laws.EncodeShape.eq a b dst
  | arb a => exact Laws.EncodeShape.arb a
  | hlt => exact Laws.EncodeShape.hlt

theorem modeDigit_of_mode {i : Instr} {k : Nat} {m : Mode} (h : i.modes[k]? = some m) : i.modeDigit (k + 1) = m.digit := by
  simp [Instr.modeDigit, h]

theorem modeDigit_of_absent {i : Instr} {k : Nat} (hk : i.modes.length < k) : i.modeDigit k = 0 := by
  rw [Instr.modeDigit, List.getElem?_eq_none (by omega)]

/-- The mode digits of an encoded instruction (R94). -/
theorem digit_encodeNat (i : Instr) {k : Nat} (hk : k ∈ [1, 2, 3]) : digit (encodeNat i) (k + 1) = i.modeDigit k := by
  obtain ⟨-, -, h1, h2, h3⟩ := encodeShape i
  simp only [List.mem_cons, List.not_mem_nil, or_false] at hk
  obtain rfl | rfl | rfl := hk
  · exact h1
  · exact h2
  · exact h3

theorem encodeNat_spells {i : Instr} (hwf : i.wf = true) : Spells (encodeNat i) i := by
  refine ⟨(encodeShape i).2.1, hwf, fun k m hk => ?_⟩
  have hlen : k < i.modes.length := (List.getElem?_eq_some_iff.1 hk).1
  have hthree := modes_length_le_three i
  have hmem : k + 1 ∈ [1, 2, 3] := by simp; omega
  exact (digit_encodeNat i hmem).trans (modeDigit_of_mode hk)

@[simp] theorem encode_toNat (i : Instr) : (encode i).toNat = encodeNat i := by
  have hlt := (encodeShape i).1
  rw [encode, BitVec.toNat_ofNat, Nat.mod_eq_of_lt (by omega)]

@[simp] theorem encode_toInt (i : Instr) : (encode i).toInt = encodeNat i := by
  have hlt := (encodeShape i).1
  rw [BitVec.toInt_eq_toNat_of_lt (by rw [encode_toNat]; omega), encode_toNat]

theorem encode_canonical (i : Instr) : Canonical (encode i) := by
  have hlt := (encodeShape i).1
  rw [Canonical, encode_toInt, encode_toNat]
  refine ⟨by omega, by omega, fun r hr hop k hk hlen => ?_⟩
  rw [digit_encodeNat i hk]
  refine modeDigit_of_absent ?_
  rwa [← (row_of_opcode hr (hop.trans (encodeShape i).2.1)).1]

/-- Settles O1: the digits of the encoded number are the opcode and the mode digits of the instruction. -/
theorem decodeOfEncodeGivesBackInstruction : Obligations.DecodeOfEncodeGivesBackInstruction := by
  intro i hwf
  refine ⟨decode_ok.2 ⟨?_, ?_⟩, encode_canonical i⟩
  · rw [encode_toInt]
    exact Int.natCast_nonneg _
  · rw [encode_toNat]
    exact encodeNat_spells hwf

/-- The mode digits of a canonical word are those of the instruction that it spells, in the slots it lacks too. -/
theorem digit_of_canonical {w : Word} {i : Instr} (hcan : Canonical w) (h : Spells w.toNat i) {k : Nat}
    (hk : k ∈ [1, 2, 3]) : digit w.toNat (k + 1) = i.modeDigit k := by
  obtain ⟨-, -, habsent⟩ := hcan
  obtain ⟨hop, -, hmodes⟩ := h
  by_cases hlen : i.modes.length < k
  · rw [modeDigit_of_absent hlen]
    exact habsent _ (row_mem_opcodeMap i) hop.symm k hk hlen
  · obtain ⟨k, rfl⟩ : ∃ j, k = j + 1 := ⟨k - 1, by simp at hk; omega⟩
    have hget : i.modes[k]? = some i.modes[k] := List.getElem?_eq_getElem (by omega)
    rw [modeDigit_of_mode hget]
    exact hmodes k _ hget

/-- Settles O2: a number of at most five digits is the sum of its digits' values, and those are the encoder's summands. -/
theorem encodeOfDecodeGivesBackCanonicalWord : Obligations.EncodeOfDecodeGivesBackCanonicalWord := by
  intro w i hcan h
  obtain ⟨hw, hspells⟩ := decode_ok.1 h
  have hle : w.toNat ≤ 99999 := by
    have hmax := hcan.2.1
    rw [BitVec.toInt_eq_toNat_cond] at hw hmax
    split at hw <;> omega
  have hdigits : encodeNat i = w.toNat := by
    rw [encodeNat, ← digit_of_canonical hcan hspells (k := 1) (by simp), ← digit_of_canonical hcan hspells (k := 2) (by simp),
      ← digit_of_canonical hcan hspells (k := 3) (by simp), ← hspells.1]
    simp only [digit]
    omega
  rw [encode, hdigits, BitVec.ofNat_toNat, BitVec.setWidth_eq]

/-- Settles O7: evaluation of twelve words. -/
theorem decodeExamplesOfTheSpec : Obligations.DecodeExamplesOfTheSpec := by
  unfold Obligations.DecodeExamplesOfTheSpec
  decide

end Sys2Proof.Machine
end

section
/-! SUPPORT. Every operation on the state keeps the invariant, and so does every step; the obligations about it.

Spec: 10_state.md R37, R38. -/

namespace Sys2Proof.Machine

section Operations

variable {s t : State}

/-! ## The operations of the core -/

/-- The invariant speaks of no list of the host's. -/
theorem State.Inv.hostLists (h : s.Inv) (calls : List HostCall) (log : List HostReply) :
    ({ s with pending := calls, replies := log } : State).Inv := { h with }

theorem State.Inv.deliver (h : s.Inv) : s.deliver.Inv := by
  obtain ⟨log, hlog⟩ := s.deliver_eq
  rw [hlog]
  exact h.hostLists s.pending log

theorem State.Inv.setIp (h : s.Inv) {a : Nat} (ha : a ≤ s.addrMax) : (s.setIp a).Inv := { h with ip_le := ha }

theorem State.Inv.setRb (h : s.Inv) (v : Word) : (s.setRb v).Inv := { h with }

theorem State.Inv.pushOutput (h : s.Inv) (v : Word) : (s.pushOutput v).Inv := { h with }

theorem State.Inv.writeCell (h : s.Inv) {a : Nat} (v : Word) (ha : a ≤ s.addrMax) : (s.writeCell a v).Inv :=
  { h with mem_wf := Memory.write_wf a v h.mem_wf, mem_within := Memory.write_within v ha h.mem_within }

/-- FK = None while the core runs or waits for input. -/
theorem State.Inv.fk_eq_none (h : s.Inv) (hst : s.st ≠ .faulted) : s.fk = none := by
  by_contra hfk
  exact hst (h.fk_iff.1 hfk)

theorem State.Inv.dropInput (h : s.Inv) (hst : s.st = .running) (rest : List Word) : (s.dropInput rest).Inv :=
  { h with inq_of_waiting := by simp [hst] }

theorem State.Inv.raise (h : s.Inv) (k : FaultKind) : (s.raise k).Inv :=
  { h with fk_iff := by simp, running_of_busy := by simp, inq_of_waiting := by simp }

theorem State.Inv.suspend (h : s.Inv) (hst : s.st = .running) (hq : s.inq = []) : s.suspend.Inv :=
  { h with
    fk_iff := by simp [h.fk_eq_none (by simp [hst])]
    running_of_busy := by simp
    inq_of_waiting := fun _ => hq }

theorem State.Inv.halt (h : s.Inv) (hst : s.st = .running) : s.halt.Inv :=
  { h with
    fk_iff := by simp [h.fk_eq_none (by simp [hst])]
    running_of_busy := by simp
    inq_of_waiting := by simp }

theorem EffAddr.le {slot ea : Nat} {m : Mode} (h : EffAddr s slot m ea) : ea ≤ s.addrMax := by
  obtain ⟨_, -, -, hle⟩ := h
  exact hle

/-- Every instruction of a running machine keeps the invariant. -/
theorem Effect.inv {i : Instr} (h : Effect i s t) (hs : s.Inv) (hst : s.st = .running) : t.Inv := by
  cases h with
  | stored slot ea m v _ _ _ hea hip => exact (hs.writeCell v hea.le).setIp hip
  | consumed ea m v rest _ hea hip => exact ((hs.dropInput hst rest).writeCell v hea.le).setIp hip
  | suspended ea m _ _ _ hq => exact hs.suspend hst hq
  | pushed m v _ _ hip => exact (hs.pushOutput v).setIp hip
  | jumped a target u n _ _ hle => exact hs.setIp hle
  | adjusted m v _ _ hip => exact (hs.setRb _).setIp hip
  | halted => exact hs.halt hst
  | faulted k => exact hs.raise k

/-! ## The operations of the host -/

theorem State.Inv.construct (h : s.Inv) {p : List Word} (hp : p.length ≤ s.addrMax + 1) : (s.construct p).Inv where
  addrMax_le := h.addrMax_le
  ip_le := Nat.zero_le _
  mem_wf := Memory.load_wf p
  mem_within := Memory.load_within p hp
  fk_iff := by simp
  running_of_busy := fun _ => rfl
  inq_of_waiting := fun _ => rfl

theorem State.Inv.beginRun (h : s.Inv) (hst : s.st = .running ∨ s.st = .awaitingInput) (inputs : List Word) :
    (s.beginRun inputs).Inv :=
  { h with
    fk_iff := by
      have hfk : s.fk = none := h.fk_eq_none (by obtain hst | hst := hst <;> simp [hst])
      simp [hfk]
    running_of_busy := by simp
    inq_of_waiting := by simp }

end Operations

/-! ## The obligations -/

/-- Settles O32: a step is one of the operations above, in a state that meets what each asks for. -/
theorem stepKeepsInvariant : Obligations.StepKeepsInvariant := by
  intro s t hs h
  cases hb : s.busy with
  | true =>
    obtain ⟨-, ⟨r, -, rfl⟩ | ⟨i, u, -, hu, rfl⟩⟩ := step_busy_cases hb h
    · exact (hs.raise _).deliver
    · exact ((exec_effect hu).inv hs (hs.running_of_busy hb)).deliver
  | false =>
    have hlists (rest : List HostCall) : ({ s with pending := rest } : State).Inv := hs.hostLists rest s.replies
    obtain ⟨-, rfl⟩ | ⟨p, rest, -, hp, rfl⟩ | ⟨a, v, rest, -, ha, rfl⟩ | ⟨inputs, rest, -, hst, rfl⟩ |
      ⟨c, rest, r, -, -, rfl⟩ := step_idle_cases hb h
    · exact hs
    · exact (hlists rest).construct hp
    · exact (hlists rest).writeCell v ha
    · exact (hlists rest).beginRun hst inputs
    · exact hs.hostLists rest _

/-- Settles O33: the values of the reset state. -/
theorem resetMeetsInvariant : Obligations.ResetMeetsInvariant where
  addrMax_le := le_rfl
  ip_le := Nat.zero_le _
  mem_wf := rfl
  mem_within := rfl
  fk_iff := by simp [State.reset]
  running_of_busy := fun _ => rfl
  inq_of_waiting := fun _ => rfl

/-- Settles O34: the values of the reset state, and an empty memory reads 0. -/
theorem resetValues : Obligations.ResetValues :=
  ⟨rfl, rfl, rfl, rfl, rfl, rfl, rfl, rfl, rfl, Memory.read_nil⟩

end Sys2Proof.Machine
end

section
/-! SUPPORT. A canonical memory is determined by its reads, and the obligation about it.

Spec: 20_memory.md R53, R55. -/

namespace Sys2Proof.Machine

/-- The first listed cell of a canonical memory reads otherwise than in a memory that lists no cell up to it. -/
theorem Memory.read_ne_of_first {a : Nat} {v : Word} {rest m : Memory} (hm : Memory.wf ((a, v) :: rest) = true)
    (habove : m.above a = true) : Memory.read ((a, v) :: rest) a ≠ m.read a := by
  obtain ⟨hv, -, -⟩ := (Memory.wf_entry ..).1 hm
  rw [Memory.read_entry, if_pos rfl, Memory.read_of_above habove le_rfl]
  exact hv

/-- Settles O8, by induction on one list: the two first cells agree, and so do the reads of what follows them. -/
theorem canonicalMemoriesEqualByReads : Obligations.CanonicalMemoriesEqualByReads := by
  intro m
  induction m with
  | nil =>
    intro m' _ hm' h
    cases m' with
    | nil => rfl
    | cons c rest => exact absurd (h c.1).symm (Memory.read_ne_of_first hm' rfl)
  | cons c rest ih =>
    obtain ⟨a, v⟩ := c
    intro m' hm hm' h
    cases m' with
    | nil => exact absurd (h a) (Memory.read_ne_of_first hm rfl)
    | cons c' rest' =>
      obtain ⟨b, u⟩ := c'
      obtain ⟨-, habove, hrest⟩ := (Memory.wf_entry ..).1 hm
      obtain ⟨-, habove', hrest'⟩ := (Memory.wf_entry ..).1 hm'
      obtain hlt | rfl | hgt := lt_trichotomy a b
      · exact absurd (h a) (Memory.read_ne_of_first hm
          ((Memory.above_entry ..).2 ⟨hlt, Memory.above_mono hlt.le habove'⟩))
      · have hvu : v = u := by simpa using h a
        have hreads : ∀ x, Memory.read rest x = Memory.read rest' x := by
          intro x
          by_cases hx : x = a
          · rw [hx, Memory.read_of_above habove le_rfl, Memory.read_of_above habove' le_rfl]
          · simpa [hx] using h x
        rw [hvu, ih rest' hrest hrest' hreads]
      · exact absurd (h b).symm (Memory.read_ne_of_first hm'
          ((Memory.above_entry ..).2 ⟨hgt, Memory.above_mono hgt.le habove⟩))

end Sys2Proof.Machine
end

section
/-! SUPPORT. The wrap modulo 2^64, and the ALU's sum and product through it; the obligations about them.

Spec: 00_scope.md R8; 42_alu.md R156, R157. -/

namespace Sys2Proof.Machine

@[simp] theorem wrap64_toInt_emod (z : Int) : (wrap64 z).toInt % 2 ^ 64 = z % 2 ^ 64 := by
  rw [wrap64, BitVec.toInt_ofInt]
  exact Int.bmod_emod

@[simp] theorem wrap64_toInt (w : Word) : wrap64 w.toInt = w := BitVec.ofInt_toInt

/-- Numbers congruent modulo 2^64 have one wrap. -/
theorem wrap64_congr {z z' : Int} (h : z % 2 ^ 64 = z' % 2 ^ 64) : wrap64 z = wrap64 z' := by
  refine BitVec.eq_of_toInt_eq ?_
  rw [wrap64, wrap64, BitVec.toInt_ofInt, BitVec.toInt_ofInt, ← Int.emod_bmod z, ← Int.emod_bmod z']
  exact congrArg (Int.bmod · (2 ^ 64)) h

/-- The wrap is the number of the range -2^63 .. 2^63 - 1 that is off by a multiple of 2^64. -/
theorem toInt_wrap64_eq {z y : Int} (h : z % 2 ^ 64 = y % 2 ^ 64) (hlo : -2 ^ 63 ≤ y) (hhi : y < 2 ^ 63) :
    (wrap64 z).toInt = y := by
  rw [wrap64_congr h, wrap64, BitVec.toInt_ofInt]
  exact Int.bmod_eq_of_le (by omega) (by omega)

theorem aluAdd_eq_wrap64 (x y : Word) : aluAdd x y = wrap64 (x.toInt + y.toInt) := rfl

theorem aluMul_eq_wrap64 (x y : Word) : aluMul x y = wrap64 (x.toInt * y.toInt) := rfl

/-- Settles O10: a word is the wrap of its own value. -/
theorem wrapIsTheUniqueCongruentWord : Obligations.WrapIsTheUniqueCongruentWord := by
  intro z
  refine ⟨wrap64_toInt_emod z, fun w hw => ?_⟩
  rw [← wrap64_congr hw, wrap64_toInt]

/-- Settles O11: two words' exact sum is less than 2^64 out of range. -/
theorem sumIsExactOrOffByTwoTo64 : Obligations.SumIsExactOrOffByTwoTo64 := by
  intro x y
  have hxlo := x.le_toInt
  have hxhi := x.toInt_lt
  have hylo := y.le_toInt
  have hyhi := y.toInt_lt
  simp only [aluAdd_eq_wrap64]
  refine ⟨fun hlo hhi => toInt_wrap64_eq rfl hlo hhi, fun h => toInt_wrap64_eq (by omega) (by omega) (by omega),
    fun h => toInt_wrap64_eq (by omega) (by omega) (by omega), by rw [Int.add_comm], by simp, ?_⟩
  have hneg := wrap64_toInt_emod (-x.toInt)
  have hzero : wrap64 (x.toInt + (wrap64 (-x.toInt)).toInt) = wrap64 0 := wrap64_congr (by omega)
  exact hzero

/-- Settles O12: the product goes through the wrap. -/
theorem productIsExactModuloTwoTo64 : Obligations.ProductIsExactModuloTwoTo64 := by
  intro x y
  simp only [aluMul_eq_wrap64]
  refine ⟨fun hlo hhi => toInt_wrap64_eq rfl hlo hhi, wrap64_toInt_emod _, by rw [Int.mul_comm], ?_, ?_⟩
  · have hone : (1 : Word).toInt = 1 := by decide
    rw [hone, Int.mul_one, wrap64_toInt]
  · have hzero : (0 : Word).toInt = 0 := by decide
    rw [hzero, Int.mul_zero]
    rfl

end Sys2Proof.Machine
end

section
/-! SUPPORT. The words and the meaning of each instruction; the obligations about them.

Spec: 30_encoding.md R81, R83, R91; 42_alu.md R151 to R155; 43_io.md R180 to R182; 44_control_transfer.md R190 to R193. -/

namespace Sys2Proof.Machine

/-! ## The words of an instruction -/

theorem hasWords_of_reasons {i : Instr} {reasons : List Rejection}
    (hreasons : ∀ w k e, 1 ≤ k → k ≤ i.modes.length → slotReject ⟨i.opcode, i.modes.length, i.writeSlot⟩ w k = some e →
      e ∈ reasons) : HasWords i.opcode i reasons := by
  intro w hcan hop
  refine ⟨?_, fun e he => ?_⟩
  · rw [decode_ok, and_iff_right hcan.1, Spells, and_iff_right hop]
  · obtain ⟨k, hk, hk', hslot⟩ := reject_of_row (row_mem_opcodeMap i) hcan.1 hop he
    exact hreasons _ k e hk hk' hslot

/-- The words of an instruction are rejected for a mode digit only. -/
theorem hasWords (i : Instr) : HasWords i.opcode i [.invalidAddressingMode, .invalidWriteTarget] := by
  refine hasWords_of_reasons fun w k e _ _ h => ?_
  obtain rfl | ⟨rfl, -⟩ := slotReject_eq_some h <;> simp

/-- Without a write slot none is rejected for a write target. -/
theorem hasWords_of_no_writeSlot {i : Instr} (hi : i.writeSlot = none) :
    HasWords i.opcode i [.invalidAddressingMode] := by
  refine hasWords_of_reasons fun w k e _ _ h => ?_
  obtain rfl | ⟨-, hslot⟩ := slotReject_eq_some h
  · simp
  · simp [hi] at hslot

/-! ## The two shared shapes -/

theorem storesResult_of_exec {mk : Mode → Mode → Mode → Instr} {f : Word → Word → Word}
    (hexec : ∀ a b dst s, exec (mk a b dst) s = storeResult f a b dst s) : StoresResult mk f := by
  intro s a b dst hdst
  simp only [hexec]
  exact ⟨fun x y ea ha hb hd hip => storeResult_done f ha hb hd hip, fun k ha => storeResult_fault_a f ha,
    fun x k ha hb => storeResult_fault_b f ha hb, fun x y k ha hb hd => storeResult_fault_dst f ha hb hdst hd,
    fun x y ea ha hb hd hip => storeResult_fault_ip f ha hb hd hip⟩

theorem jumpsWhen_of_exec {mk : Mode → Mode → Instr} {p : Word → Bool} {taken : Word → Prop}
    (hexec : ∀ a target s, exec (mk a target) s = jumpWhen p a target s) (hp : ∀ x, p x = true ↔ taken x) :
    JumpsWhen mk taken := by
  have hnot {x : Word} (hx : ¬ taken x) : p x = false := Bool.eq_false_iff.2 (mt (hp x).1 hx)
  intro s a target
  simp only [hexec]
  exact ⟨fun x t n ha ht hx hn hle => jumpWhen_taken ha ht ((hp x).2 hx) hn hle,
    fun x t ha ht hx hip => jumpWhen_not_taken ha ht (hnot hx) hip, fun k ha => jumpWhen_fault_a ha,
    fun x k ha ht => jumpWhen_fault_target ha ht, fun x t k ha ht hx hk => jumpWhen_fault_taken ha ht ((hp x).2 hx) hk,
    fun x t ha ht hx hip => jumpWhen_fault_ip ha ht (hnot hx) hip⟩

theorem toInt_eq_zero_iff {x : Word} : x.toInt = 0 ↔ x = 0 := BitVec.toInt_inj (y := 0)

theorem whenTrue_iff (x : Word) : whenTrue x = true ↔ x ≠ 0 := by
  rw [whenTrue, decide_eq_true_iff, ne_eq, toInt_eq_zero_iff]

theorem whenFalse_iff (x : Word) : whenFalse x = true ↔ x = 0 := by
  rw [whenFalse, decide_eq_true_iff, toInt_eq_zero_iff]

theorem aluEq_eq_ite (x y : Word) : aluEq x y = if x = y then 1 else 0 := by
  simp only [aluEq, BitVec.toInt_inj]

/-! ## The obligations -/

/-- Settles O14: ADD has the shared shape of the storing instructions, with the wrapped sum. -/
theorem addStoresWrappedSum : Obligations.AddStoresWrappedSum :=
  ⟨fun a b dst => hasWords (.add a b dst), storesResult_of_exec (f := aluAdd) fun _ _ _ _ => rfl⟩

/-- Settles O15: MUL has the shared shape of the storing instructions, with the wrapped product. -/
theorem mulStoresWrappedProduct : Obligations.MulStoresWrappedProduct :=
  ⟨fun a b dst => hasWords (.mul a b dst), storesResult_of_exec (f := aluMul) fun _ _ _ _ => rfl⟩

/-- Settles O16: LT has the shared shape of the storing instructions, with the signed comparison. -/
theorem ltStoresSignedComparison : Obligations.LtStoresSignedComparison :=
  ⟨fun a b dst => hasWords (.lt a b dst), storesResult_of_exec (f := aluLt) fun _ _ _ _ => rfl⟩

/-- Settles O17: EQ has the shared shape of the storing instructions, and words with one signed value are equal. -/
theorem eqStoresEquality : Obligations.EqStoresEquality := by
  have hf : (fun x y : Word => if x = y then (1 : Word) else 0) = aluEq := by
    funext x y
    exact (aluEq_eq_ite x y).symm
  refine ⟨fun a b dst => hasWords (.eq a b dst), ?_⟩
  rw [hf]
  exact storesResult_of_exec fun _ _ _ _ => rfl

/-- Settles O18: the outcomes of ARB, one by one. -/
theorem arbAddsOperandToRelativeBase : Obligations.ArbAddsOperandToRelativeBase := fun _ a =>
  ⟨hasWords_of_no_writeSlot (i := .arb a) rfl, fun _ => execArb_done, fun _ => execArb_fault_a, fun _ => execArb_fault_ip⟩

/-- Settles O19: the outcomes of IN with a value available, and its faults whatever the queue holds. -/
theorem inStoresHeadOfQueue : Obligations.InStoresHeadOfQueue :=
  ⟨fun dst => hasWords (.inp dst), fun _ _ hdst =>
    ⟨fun _ _ _ => execInp_done, fun _ => execInp_fault_dst hdst, fun _ => execInp_fault_ip⟩⟩

/-- Settles O20: the outcome of IN with the queue empty. -/
theorem inSuspendsOnEmptyQueue : Obligations.InSuspendsOnEmptyQueue := fun _ _ _ => execInp_suspends

/-- Settles O21: the outcomes of OUT, one by one. -/
theorem outAppendsOperand : Obligations.OutAppendsOperand := fun _ a =>
  ⟨hasWords_of_no_writeSlot (i := .out a) rfl, fun _ => execOut_done, fun _ => execOut_fault_a, fun _ => execOut_fault_ip⟩

/-- Settles O22: JT has the shared shape of the jumps, taken on any word but 0. -/
theorem jtJumpsOnNonZero : Obligations.JtJumpsOnNonZero :=
  ⟨fun a target => hasWords_of_no_writeSlot (i := .jt a target) rfl,
    jumpsWhen_of_exec (fun _ _ _ => rfl) whenTrue_iff⟩

/-- Settles O23: JF has the shared shape of the jumps, taken on 0. -/
theorem jfJumpsOnZero : Obligations.JfJumpsOnZero :=
  ⟨fun a target => hasWords_of_no_writeSlot (i := .jf a target) rfl,
    jumpsWhen_of_exec (fun _ _ _ => rfl) whenFalse_iff⟩

/-- Settles O24: HLT has no slot, so none of its words is rejected. -/
theorem hltHalts : Obligations.HltHalts := by
  refine ⟨hasWords_of_reasons (i := .hlt) fun w k e hk hk' _ => ?_, fun _ => rfl⟩
  simp only [Instr.modes, List.length_nil] at hk'
  omega

end Sys2Proof.Machine
end

section
/-! SUPPORT. What the effect of an instruction changes and leaves unchanged, field by field; the frame obligations.

Spec: 20_memory.md R71; 40_instruction_cycle.md R123; 41_addressing_resolver.md R137; 42_alu.md R163. -/

namespace Sys2Proof.Machine

section Effects

variable {i : Instr} {s t : State}

/-! ## Memory -/

/-- An effect leaves memory alone or stores one value through the write slot. -/
theorem Effect.mem_cases (h : Effect i s t) :
    t.mem = s.mem ∨ ∃ slot m ea v, i.writeSlot = some slot ∧ i.modes[slot - 1]? = some m ∧ EffAddr s slot m ea ∧
      t.mem = s.mem.write ea v := by
  cases h with
  | stored slot ea m v hslot hm _ hea => exact .inr ⟨slot, m, ea, v, hslot, hm, hea, rfl⟩
  | consumed ea m v rest hi hea => exact .inr ⟨1, m, ea, v, by rw [hi]; rfl, by rw [hi]; rfl, hea, rfl⟩
  | suspended => exact .inl rfl
  | pushed => exact .inl rfl
  | jumped => exact .inl rfl
  | adjusted => exact .inl rfl
  | halted => exact .inl rfl
  | faulted => exact .inl rfl

/-- A cell that the write operand does not address keeps its value (R71, R123). -/
theorem Effect.read_eq (h : Effect i s t) {c : Nat}
    (hc : ∀ slot m, i.writeSlot = some slot → i.modes[slot - 1]? = some m → ¬ EffAddr s slot m c) :
    t.mem.read c = s.mem.read c := by
  obtain hmem | ⟨slot, m, ea, v, hslot, hm, hea, hmem⟩ := h.mem_cases
  · rw [hmem]
  · have hne : c ≠ ea := fun he => hc slot m hslot hm (he ▸ hea)
    rw [hmem, Memory.read_write_other _ v hne]

/-- The cells that keep their value, by the answer of the write operand's resolution. -/
theorem Effect.read_eq_of_resolveWrite (h : Effect i s t) {slot : Nat} {m : Mode} (hslot : i.writeSlot = some slot)
    (hm : i.modes[slot - 1]? = some m) :
    (∀ ea, resolveWrite s slot m = .ok ea → ∀ c, c ≠ ea → t.mem.read c = s.mem.read c) ∧
      (∀ k, resolveWrite s slot m = .error k → ∀ c, t.mem.read c = s.mem.read c) := by
  have key {c : Nat} (hc : resolveWrite s slot m ≠ .ok c) : t.mem.read c = s.mem.read c := by
    refine h.read_eq fun slot' m' hslot' hm' hea => hc ?_
    obtain rfl := Option.some.inj (hslot.symm.trans hslot')
    obtain rfl := Option.some.inj (hm.symm.trans hm')
    exact resolveWrite_ok.2 hea
  refine ⟨fun ea hea c hne => key fun hc => ?_, fun k hk c => key fun hc => ?_⟩
  · exact hne (Except.ok.inj (hc.symm.trans hea))
  · cases hc.symm.trans hk

/-! ## Registers, queues and the host's lists -/

theorem Effect.addrMax_eq (h : Effect i s t) : t.addrMax = s.addrMax := by cases h <;> rfl

theorem Effect.pending_eq (h : Effect i s t) : t.pending = s.pending := by cases h <;> rfl

theorem Effect.replies_eq (h : Effect i s t) : t.replies = s.replies := by cases h <;> rfl

/-- RB is changed by ARB only (R24). -/
theorem Effect.rb_cases (h : Effect i s t) :
    t.rb = s.rb ∨ ∃ a x, i = .arb a ∧ Operand s 1 a x ∧ t.rb = aluAdd s.rb x := by
  cases h with
  | adjusted m v hi hv => exact .inr ⟨m, v, hi, hv, rfl⟩
  | _ => exact .inl rfl

/-- OUTQ is changed by OUT only (R34). -/
theorem Effect.outq_cases (h : Effect i s t) : t.outq = s.outq ∨ ∃ a v, i = .out a ∧ t.outq = s.outq ++ [v] := by
  cases h with
  | pushed m v hi => exact .inr ⟨m, v, hi, rfl⟩
  | _ => exact .inl rfl

/-- INQ is changed by IN only (R33). -/
theorem Effect.inq_cases (h : Effect i s t) : t.inq = s.inq ∨ ∃ m v, i = .inp m ∧ s.inq = v :: t.inq := by
  cases h with
  | consumed ea m v rest hi _ _ hq => exact .inr ⟨m, v, hi, hq⟩
  | _ => exact .inl rfl

/-- An effect leaves ST, FK and BUSY alone, or it ends the run in one of three ways (R209). -/
theorem Effect.status_cases (h : Effect i s t) :
    (t.st = s.st ∧ t.fk = s.fk ∧ t.busy = s.busy) ∨
    (t = s.suspend ∧ ∃ m ea, i = .inp m ∧ EffAddr s 1 m ea ∧ s.ip + 2 ≤ s.addrMax ∧ s.inq = []) ∨
    (t = s.halt ∧ i = .hlt) ∨ ∃ k, t = s.raise k := by
  cases h with
  | suspended ea m hi hea hip hq => exact .inr (.inl ⟨rfl, m, ea, hi, hea, hip, hq⟩)
  | halted hi => exact .inr (.inr (.inl ⟨rfl, hi⟩))
  | faulted k => exact .inr (.inr (.inr ⟨k, rfl⟩))
  | _ => exact .inl ⟨rfl, rfl, rfl⟩

/-! ## An immediate write operand -/

theorem EffAddr.ne_immediate {slot ea : Nat} {m : Mode} (h : EffAddr s slot m ea) : m ≠ .immediate := by
  rintro rfl
  obtain ⟨_, -, hidx, -⟩ := h
  cases hidx

/-- Well-formedness is a property of the write operand (R87, R88). -/
theorem wf_iff : i.wf = true ↔ ∀ slot, i.writeSlot = some slot → ∀ m, i.modes[slot - 1]? = some m → m.writable = true := by
  cases i <;> simp [Instr.wf, Instr.writeSlot, Instr.modes]

theorem writable_of_ne_immediate {m : Mode} (h : m ≠ .immediate) : m.writable = true := by
  cases m with
  | position => rfl
  | immediate => exact absurd rfl h
  | relative => rfl

theorem wf_of_effAddr {slot ea : Nat} {m : Mode} (hslot : i.writeSlot = some slot) (hm : i.modes[slot - 1]? = some m)
    (hea : EffAddr s slot m ea) : i.wf = true := by
  refine wf_iff.2 fun slot' hslot' m' hm' => ?_
  obtain rfl := Option.some.inj (hslot.symm.trans hslot')
  obtain rfl := Option.some.inj (hm.symm.trans hm')
  exact writable_of_ne_immediate hea.ne_immediate

/-- An ill-formed instruction only ever faults (R137). -/
theorem Effect.of_not_wf (h : Effect i s t) (hwf : i.wf = false) : ∃ k, t = s.raise k := by
  have hno {P : Prop} (hi : i.wf = true) : P := by
    rw [hi] at hwf
    cases hwf
  cases h with
  | stored slot ea m v hslot hm _ hea => exact hno (wf_of_effAddr hslot hm hea)
  | consumed ea m v rest hi hea =>
    subst hi
    exact hno (wf_of_effAddr rfl rfl hea)
  | suspended ea m hi hea =>
    subst hi
    exact hno (wf_of_effAddr rfl rfl hea)
  | pushed m v hi => exact hno (by rw [hi]; rfl)
  | jumped a target u n hi => exact hno (by obtain rfl | rfl := hi <;> rfl)
  | adjusted m v hi => exact hno (by rw [hi]; rfl)
  | halted hi => exact hno (by rw [hi]; rfl)
  | faulted k => exact ⟨k, rfl⟩

end Effects

/-! ## The obligations -/

/-- Settles O25: every effect but a fault needs a write operand with an address, or no write slot. -/
theorem immediateWriteOperandNeverStores : Obligations.ImmediateWriteOperandNeverStores := by
  intro i s hwf
  obtain ⟨t, ht⟩ := exec_next i s
  obtain ⟨k, rfl⟩ := (exec_effect ht).of_not_wf hwf
  exact ⟨k, ht⟩

/-- Settles O26: the fields of an effect of an instruction that is none of IN, OUT, ARB and HLT. -/
theorem storingInstructionsFrame : Obligations.StoringInstructionsFrame := by
  intro i a b dst s t hi h
  have he := exec_effect h
  obtain ⟨hslot, hdst⟩ : i.writeSlot = some 3 ∧ i.modes[2]? = some dst := by
    obtain rfl | rfl | rfl | rfl := hi <;> exact ⟨rfl, rfl⟩
  have harb (m : Mode) : i ≠ .arb m := by rintro rfl; cases hslot
  have hout (m : Mode) : i ≠ .out m := by rintro rfl; cases hslot
  have hinp (m : Mode) : i ≠ .inp m := by rintro rfl; cases hslot
  have hhlt : i ≠ .hlt := by rintro rfl; cases hslot
  refine ⟨he.addrMax_eq, ?_, ?_, ?_, he.pending_eq, he.replies_eq, ?_, he.read_eq_of_resolveWrite hslot hdst⟩
  · exact he.rb_cases.resolve_right fun ⟨m, _, hm, _⟩ => harb m hm
  · exact he.inq_cases.resolve_right fun ⟨m, _, hm, _⟩ => hinp m hm
  · exact he.outq_cases.resolve_right fun ⟨m, _, hm, _⟩ => hout m hm
  · obtain hgo | ⟨-, m, _, hm, -⟩ | ⟨-, hm⟩ | hfault := he.status_cases
    · exact .inl hgo
    · exact absurd hm (hinp m)
    · exact absurd hm hhlt
    · exact .inr hfault

/-- Settles O27: the fields of an effect of IN, and its three outcomes. -/
theorem inputInstructionFrame : Obligations.InputInstructionFrame := by
  intro dst s t h
  have he := exec_effect h
  refine ⟨he.addrMax_eq, ?_, ?_, he.pending_eq, he.replies_eq, ?_, he.read_eq_of_resolveWrite rfl rfl⟩
  · exact he.rb_cases.resolve_right fun ⟨_, _, hm, _⟩ => nomatch hm
  · exact he.outq_cases.resolve_right fun ⟨_, _, hm, _⟩ => nomatch hm
  · obtain ⟨ea, v, rest, -, -, hq, rfl⟩ | ⟨ea, -, -, hq, rfl⟩ | hfault := execInp_cases h
    · exact .inl ⟨v, hq, rfl, rfl, rfl⟩
    · exact .inr (.inl ⟨hq, rfl⟩)
    · exact .inr (.inr hfault)

/-- Settles O28: the fields of an effect of an instruction without a write slot. -/
theorem nonStoringInstructionsFrame : Obligations.NonStoringInstructionsFrame := by
  intro i s t hslot h
  have he := exec_effect h
  have hinp (m : Mode) : i ≠ .inp m := by rintro rfl; cases hslot
  refine ⟨fun c => he.read_eq fun slot m hs => ?_, he.addrMax_eq, ?_, he.pending_eq, he.replies_eq, fun harb => ?_,
    fun hout => ?_, ?_⟩
  · cases hslot.symm.trans hs
  · exact he.inq_cases.resolve_right fun ⟨m, _, hm, _⟩ => hinp m hm
  · exact he.rb_cases.resolve_right fun ⟨m, _, hm, _⟩ => harb m hm
  · exact he.outq_cases.resolve_right fun ⟨m, _, hm, _⟩ => hout m hm
  · obtain hgo | ⟨-, m, _, hm, -⟩ | ⟨ht, hm⟩ | hfault := he.status_cases
    · exact .inl hgo
    · exact absurd hm (hinp m)
    · exact .inr (.inl ⟨hm, ht⟩)
    · exact .inr (.inr hfault)

end Sys2Proof.Machine
end

section
/-! SUPPORT. The core's step: it goes on, or it ends the run in one of three ways with one answer to the host; the obligations about
single steps.

Spec: 10_state.md R22, R24, R39; 40_instruction_cycle.md R112, R113, R121; 44_control_transfer.md R195; 45_run_interface.md R209, R210,
R213, R214; 60_exceptions.md R238, R239, R250. -/

namespace Sys2Proof.Machine

section Steps

variable {s t : State}

/-! ## The core's step by what the decoder answers -/

theorem step_of_decoded {i : Instr} (hb : s.busy = true) (hip : s.ip ≤ s.addrMax)
    (hd : decode (s.mem.read s.ip) = .ok i) : step s = delivered (exec i s) := by
  rw [step_of_busy hb hip, hd]

theorem step_of_rejected {r : Rejection} (hb : s.busy = true) (hip : s.ip ≤ s.addrMax)
    (hd : decode (s.mem.read s.ip) = .error r) : step s = .next (s.raise (rejectionFault r)).deliver := by
  rw [step_of_busy hb hip, hd]

/-! ## The return of a run -/

theorem State.deliver_suspend (s : State) : s.suspend.deliver = s.suspend.reply (.progress s.outq) :=
  State.deliver_of_result rfl rfl

theorem State.deliver_halt (s : State) : s.halt.deliver = s.halt.reply (.halted s.outq) :=
  State.deliver_of_result rfl rfl

theorem State.deliver_raise (s : State) (k : FaultKind) : (s.raise k).deliver = (s.raise k).reply (.faulted k s.outq) :=
  State.deliver_of_result rfl rfl

theorem State.deliver_replies_prefix (s : State) : s.replies <+: s.deliver.replies := by
  unfold State.deliver
  split
  · exact List.prefix_rfl
  · split
    · exact List.prefix_append ..
    · exact List.prefix_rfl

/-- A step of the core goes on with ST, FK and the host's log as they are, or it ends the run: at an IN without input, at HLT, or by
a fault, each with its answer (R209, R210). -/
theorem step_busy_status (hb : s.busy = true) (h : step s = .next t) :
    (t.busy = true ∧ t.st = s.st ∧ t.fk = s.fk ∧ t.replies = s.replies) ∨
    (t = s.suspend.reply (.progress s.outq) ∧ ∃ m ea, decode (s.mem.read s.ip) = .ok (.inp m) ∧ EffAddr s 1 m ea ∧
      s.ip + 2 ≤ s.addrMax ∧ s.inq = []) ∨
    (t = s.halt.reply (.halted s.outq) ∧ decode (s.mem.read s.ip) = .ok .hlt) ∨
    ∃ k, t = (s.raise k).reply (.faulted k s.outq) := by
  obtain ⟨-, ⟨r, -, rfl⟩ | ⟨i, u, hd, hu, rfl⟩⟩ := step_busy_cases hb h
  · exact .inr (.inr (.inr ⟨_, State.deliver_raise ..⟩))
  · have he := exec_effect hu
    obtain ⟨hst, hfk, hbusy⟩ | ⟨rfl, m, ea, rfl, hea, hip, hq⟩ | ⟨rfl, rfl⟩ | ⟨k, rfl⟩ := he.status_cases
    · rw [hb] at hbusy
      rw [State.deliver_of_busy hbusy]
      exact .inl ⟨hbusy, hst, hfk, he.replies_eq⟩
    · exact .inr (.inl ⟨State.deliver_suspend s, m, ea, hd, hea, hip, hq⟩)
    · exact .inr (.inr (.inl ⟨State.deliver_halt s, hd⟩))
    · exact .inr (.inr (.inr ⟨k, State.deliver_raise ..⟩))

/-! ## IP -/

/-- A completed instruction that is no jump advances IP by its length (R195). -/
theorem Effect.ip_eq {i : Instr} (h : Effect i s t) (hb : t.busy = true) (hi : ∀ a g, i ≠ .jt a g ∧ i ≠ .jf a g) :
    t.ip = s.ip + i.length := by
  cases h with
  | stored slot ea m v _ _ hlen => rw [hlen]; rfl
  | consumed ea m v rest hi' => rw [hi']; rfl
  | suspended => cases hb
  | pushed m v hi' => rw [hi']; rfl
  | jumped a target u n hi' =>
    obtain hi' | hi' := hi'
    · exact absurd hi' (hi a target).1
    · exact absurd hi' (hi a target).2
  | adjusted m v hi' => rw [hi']; rfl
  | halted => cases hb
  | faulted => cases hb

theorem jumpWhen_ip {p : Word → Bool} {a target : Mode} (h : jumpWhen p a target s = .next t) (hb : t.busy = true) :
    t.ip = s.ip + 3 ∨ ∃ v, Operand s 2 target v ∧ v.toInt = (t.ip : Int) := by
  obtain ⟨x, v, n, -, hv, -, rfl, ⟨-, hn⟩ | ⟨-, hn⟩⟩ | ⟨k, rfl⟩ := jumpWhen_cases h
  · exact .inr ⟨v, hv, hn⟩
  · exact .inl hn
  · cases hb

/-! ## The host's move -/

/-- Every transaction of the host has a next state, but a reset with a program that does not fit (R63). -/
theorem hostCall_next {c : HostCall} (hc : ∀ p, c = .reset p → p.length ≤ s.addrMax + 1) :
    ∃ t, hostCall c s = .next t := by
  cases c with
  | reset p => exact ⟨_, if_pos (hc p rfl)⟩
  | poke a v =>
    simp only [hostCall]
    split <;> exact ⟨_, rfl⟩
  | run inputs =>
    simp only [hostCall]
    split <;> exact ⟨_, rfl⟩

end Steps

/-! ## The obligations -/

/-- Settles O29: the step is the meaning of the decoded instruction and the return of the run. -/
theorem stepRunsDecodedInstruction : Obligations.StepRunsDecodedInstruction := by
  intro s t i hb hip hd hi
  have hstep : step s = .next t.deliver := by rw [step_of_decoded hb hip hd, hi, delivered_next]
  refine ⟨fun ht => ?_, fun r ht hr => ?_⟩
  · rw [hstep, State.deliver_of_busy ht]
  · rw [hstep, State.deliver_of_result ht hr]
    rfl

/-- Settles O30: the step is the entry of the rejection's fault and the return of the run. -/
theorem rejectedWordTakesItsFault : Obligations.RejectedWordTakesItsFault := by
  intro s e hb hip hd
  refine ⟨_, step_of_rejected hb hip hd, ?_⟩
  rw [State.deliver_raise]
  cases e <;> rfl

/-- Settles O31: IP names a cell, every instruction answers, and so does the host. -/
theorem stepAlwaysAnswersUnderInvariant : Obligations.StepAlwaysAnswersUnderInvariant := by
  intro s hinv h
  cases hb : s.busy with
  | true =>
    cases hd : decode (s.mem.read s.ip) with
    | error r => exact ⟨_, step_of_rejected hb hinv.ip_le hd⟩
    | ok i =>
      obtain ⟨t, ht⟩ := exec_next i s
      exact ⟨t.deliver, by rw [step_of_decoded hb hinv.ip_le hd, ht, delivered_next]⟩
  | false =>
    have hfits := h.resolve_left (by simp [hb])
    rw [step_of_idle hb, hostMove]
    cases hp : s.pending with
    | nil => exact ⟨s, rfl⟩
    | cons c rest => exact hostCall_next fun p hc => hfits p rest (by rw [hp, hc])

/-- Settles O35: a fault of decoding stores nothing, and an effect stores through the write slot only. -/
theorem stepChangesOnlyTheDestinationCell : Obligations.StepChangesOnlyTheDestinationCell := by
  intro s t c hb h hc
  obtain ⟨-, ⟨r, -, rfl⟩ | ⟨i, u, hd, hu, rfl⟩⟩ := step_busy_cases hb h
  · simp at hc
  · by_contra hno
    rw [State.deliver_mem] at hc
    exact hc ((exec_effect hu).read_eq fun slot m hslot hm hea => hno ⟨i, slot, m, hd, hslot, hm, hea⟩)

/-- Settles O36: a step that ends the run leaves IP, and one that goes on is a completed instruction. -/
theorem ipAdvancesByLengthOrJumps : Obligations.IpAdvancesByLengthOrJumps := by
  intro s t i hb hd h
  obtain ⟨-, ⟨r, hr, -⟩ | ⟨j, u, hj, hu, ht⟩⟩ := step_busy_cases hb h
  · cases hd.symm.trans hr
  obtain rfl : i = j := Except.ok.inj (hd.symm.trans hj)
  refine ⟨fun hend => ?_, fun hgo hi => ?_, fun hgo a g hi => ?_⟩
  · obtain ⟨hgo, -⟩ | ⟨rfl, -⟩ | ⟨rfl, -⟩ | ⟨k, rfl⟩ := step_busy_status hb h
    · simp [hend] at hgo
    · rfl
    · rfl
    · rfl
  all_goals
    subst ht
    rw [State.deliver_busy] at hgo
    rw [State.deliver_ip]
  · exact (exec_effect hu).ip_eq hgo hi
  · obtain rfl | rfl := hi <;> exact jumpWhen_ip hu hgo

/-- Settles O37: of the effects ARB's alone changes RB, and of the host's moves its reset alone. -/
theorem onlyArbAndResetChangeRelativeBase : Obligations.OnlyArbAndResetChangeRelativeBase := by
  intro s t h hrb
  cases hb : s.busy with
  | true =>
    obtain ⟨-, ⟨r, -, rfl⟩ | ⟨i, u, hd, hu, rfl⟩⟩ := step_busy_cases hb h
    · simp at hrb
    · rw [State.deliver_rb] at hrb ⊢
      obtain ⟨a, x, rfl, hx, hsum⟩ := (exec_effect hu).rb_cases.resolve_left hrb
      exact .inl ⟨rfl, a, x, hd, hx, hsum⟩
  | false =>
    obtain ⟨-, rfl⟩ | ⟨p, rest, hp, -, rfl⟩ | ⟨a, v, rest, -, -, rfl⟩ | ⟨inputs, rest, -, -, rfl⟩ |
      ⟨c, rest, r, -, -, rfl⟩ := step_idle_cases hb h
    · exact absurd rfl hrb
    · exact .inr ⟨rfl, rfl, p, rest, hp⟩
    · exact absurd rfl hrb
    · exact absurd rfl hrb
    · exact absurd rfl hrb

/-- Settles O39: the core steps from ST = Running, so that ST = Faulted is the entry of a fault. -/
theorem faultsArePrecise : Obligations.FaultsArePrecise := by
  intro s t hinv hb h hst
  obtain ⟨-, hgo, -⟩ | ⟨rfl, -⟩ | ⟨rfl, -⟩ | ⟨k, rfl⟩ := step_busy_status hb h
  · simp [hst, hinv.running_of_busy hb] at hgo
  · cases hst
  · cases hst
  · exact ⟨k, rfl⟩

/-- Settles O41: going on keeps ST = Running, and each end of the run takes another value of ST. -/
theorem runEndsExactlyWhenStatusLeavesRunning : Obligations.RunEndsExactlyWhenStatusLeavesRunning := by
  intro s t hinv hb h
  obtain ⟨hgo, hst, -⟩ | ⟨rfl, -⟩ | ⟨rfl, -⟩ | ⟨k, rfl⟩ := step_busy_status hb h
  · simp [hgo, hst, hinv.running_of_busy hb]
  · simp
  · simp
  · simp

/-- Settles O42: of the ends of a run the suspension alone takes ST to AwaitingInput, and it leaves what the checks read. -/
theorem suspensionOnlyAtInput : Obligations.SuspensionOnlyAtInput := by
  intro s t hinv hb h hst
  obtain ⟨-, hgo, -⟩ | ⟨rfl, m, ea, hd, hea, hip, hq⟩ | ⟨rfl, -⟩ | ⟨k, rfl⟩ := step_busy_status hb h
  · simp [hst, hinv.running_of_busy hb] at hgo
  · exact ⟨m, ea, hd, hea, hip, hq, rfl⟩
  · cases hst
  · cases hst

/-- Settles O48: each end of the run has its answer, and going on has none. -/
theorem runReturnsOneResultByStatus : Obligations.RunReturnsOneResultByStatus := by
  intro s t hinv hb h
  obtain ⟨hgo, -, -, hlog⟩ | ⟨rfl, -⟩ | ⟨rfl, -⟩ | ⟨k, rfl⟩ := step_busy_status hb h
  · exact ⟨fun _ => hlog, fun hend => by simp [hend] at hgo⟩
  · exact ⟨nofun, fun _ => .inl ⟨rfl, rfl⟩⟩
  · exact ⟨nofun, fun _ => .inr (.inl ⟨rfl, rfl⟩)⟩
  · exact ⟨nofun, fun _ => .inr (.inr ⟨rfl, k, _, rfl, rfl⟩)⟩

/-- Settles O49: the core's step touches of these fields the host's log alone, and a move of the host takes its call off the list. -/
theorem hostMakesNoMoveDuringRun : Obligations.HostMakesNoMoveDuringRun := by
  intro s t h
  cases hb : s.busy with
  | true =>
    suffices hkeep : t.addrMax = s.addrMax ∧ s.replies <+: t.replies ∧ t.pending = s.pending from
      ⟨hkeep.1, hkeep.2.1, fun _ => hkeep.2.2, nofun⟩
    obtain ⟨-, ⟨r, -, rfl⟩ | ⟨i, u, -, hu, rfl⟩⟩ := step_busy_cases hb h
    · exact ⟨State.deliver_addrMax _, State.deliver_replies_prefix (s.raise _), State.deliver_pending _⟩
    · have he := exec_effect hu
      rw [State.deliver_addrMax, State.deliver_pending, ← he.replies_eq]
      exact ⟨he.addrMax_eq, u.deliver_replies_prefix, he.pending_eq⟩
  | false =>
    obtain ⟨hp, rfl⟩ | ⟨p, rest, hp, -, rfl⟩ | ⟨a, v, rest, hp, -, rfl⟩ | ⟨inputs, rest, hp, -, rfl⟩ |
      ⟨c, rest, r, hp, -, rfl⟩ := step_idle_cases hb h
    · exact ⟨rfl, List.prefix_rfl, nofun, fun _ => by rw [hp]; rfl⟩
    · exact ⟨rfl, List.prefix_rfl, nofun, fun _ => by rw [hp]; rfl⟩
    · exact ⟨rfl, List.prefix_rfl, nofun, fun _ => by rw [hp]; rfl⟩
    · exact ⟨rfl, List.prefix_rfl, nofun, fun _ => by rw [hp]; rfl⟩
    · exact ⟨rfl, List.prefix_append .., nofun, fun _ => by rw [hp]; rfl⟩

end Sys2Proof.Machine
end

section
/-! SUPPORT. The host's transactions one by one; the obligations about them.

Spec: 20_memory.md R63; 45_run_interface.md R206, R208, R211, R212; 70_reset_and_hazards.md R270. -/

namespace Sys2Proof.Machine

/-! ## One move of the host -/

section Moves

variable {s : State}

theorem step_of_call {c : HostCall} {rest : List HostCall} (hb : s.busy = false) (hp : s.pending = c :: rest) :
    step s = hostCall c { s with pending := rest } := by
  rw [step_of_idle hb, hostMove, hp]

theorem hostCall_poke_ok {a : Int} {n : Nat} (v : Word) (h : checkAddr s.addrMax a = .ok n) :
    hostCall (.poke a v) s = .next (s.writeCell n v) := by
  simp [hostCall, h]

theorem hostCall_poke_error {a : Int} {k : FaultKind} (v : Word) (h : checkAddr s.addrMax a = .error k) :
    hostCall (.poke a v) s = .next (s.reply .badPokeIndex) := by
  simp [hostCall, h]

theorem hostCall_run (inputs : List Word) (h : s.st = .running ∨ s.st = .awaitingInput) :
    hostCall (.run inputs) s = .next (s.beginRun inputs) := by
  obtain h | h := h <;> simp [hostCall, h]

theorem hostCall_run_halted (inputs : List Word) (h : s.st = .halted) :
    hostCall (.run inputs) s = .next (s.reply .runAfterHalt) := by
  simp [hostCall, h]

theorem hostCall_run_faulted (inputs : List Word) (h : s.st = .faulted) :
    hostCall (.run inputs) s = .next (s.reply .runAfterFault) := by
  simp [hostCall, h]

end Moves

/-! ## The obligations -/

/-- Settles O51: the constructed machine, whose memory is the load of the program. -/
theorem hostResetConstructsMachine : Obligations.HostResetConstructsMachine := by
  intro s p rest hb hp hlen
  exact ⟨({ s with pending := rest } : State).construct p, (step_of_call hb hp).trans (if_pos hlen), rfl, rfl, rfl, rfl,
    rfl, rfl, rfl, rfl, rfl, rfl, Memory.load_wf p, Memory.read_load p⟩

/-- Settles O52: the program does not fit. -/
theorem hostResetWithTooLongProgramStops : Obligations.HostResetWithTooLongProgramStops := by
  intro s p rest hb hp hlen
  exact (step_of_call hb hp).trans (if_neg (not_le.2 hlen))

/-- Settles O53: the index check decides, and a poke in range is one write. -/
theorem hostPokeWritesOneCell : Obligations.HostPokeWritesOneCell := by
  intro s a v rest hwf hb hp
  refine ⟨fun n ha hn => ?_, fun hout => ?_⟩
  · exact ⟨({ s with pending := rest } : State).writeCell n v,
      (step_of_call hb hp).trans (hostCall_poke_ok v (checkAddr_ok.2 ⟨ha, hn⟩)), Memory.read_write hwf n v, rfl⟩
  · obtain ⟨k, hk⟩ : ∃ k, IndexFault s a k :=
      hout.elim (fun h => ⟨_, .inl ⟨h, rfl⟩⟩) (fun h => ⟨_, .inr ⟨h, rfl⟩⟩)
    exact (step_of_call hb hp).trans (hostCall_poke_error v (checkAddr_error.2 hk))

/-- Settles O54: a run that is not refused. -/
theorem hostRunBegins : Obligations.HostRunBegins := by
  intro s inputs rest hb hp hst
  exact (step_of_call hb hp).trans (hostCall_run inputs hst)

/-- Settles O55: the two refusals of a run. -/
theorem hostRunRefusedAfterHaltOrFault : Obligations.HostRunRefusedAfterHaltOrFault := by
  intro s inputs rest hb hp
  exact ⟨fun hst => (step_of_call hb hp).trans (hostCall_run_halted inputs hst),
    fun hst => (step_of_call hb hp).trans (hostCall_run_faulted inputs hst)⟩

end Sys2Proof.Machine
end

section
/-! SUPPORT. What holds along runs: the idle machine, the stopped machine, the two queues; the obligations about them.

Spec: 10_state.md R38; 40_instruction_cycle.md R110; 43_io.md R183; 60_exceptions.md R241. -/

namespace Sys2Proof.Machine

section Runs

variable {s t : State}

/-! ## The idle machine -/

theorem step_idle_self (hb : s.busy = false) (hp : s.pending = []) : step s = .next s := by
  rw [step_of_idle hb, hostMove, hp]

theorem RunsTo.eq_of_idle {n : Nat} (h : RunsTo n s t) (hb : s.busy = false) (hp : s.pending = []) : t = s := by
  refine h.invariant (P := (· = s)) (fun u v hu hv => ?_) rfl
  subst hu
  exact (Host.Outcome.next.inj ((step_idle_self hb hp).symm.trans hv)).symm

/-! ## The stopped machine -/

/-- `t` is `s` but for the host's log, the calls to come, all of them calls of `s`, and the cells that a call of `s` pokes. -/
def OnlyPoked (s t : State) : Prop :=
  ∃ m calls log, t = { s with mem := m, pending := calls, replies := log } ∧
    (∀ c, c ∈ calls → c ∈ s.pending) ∧ ∀ a, NoPoke s a → Memory.read m a = s.mem.read a

theorem OnlyPoked.refl (s : State) : OnlyPoked s s := ⟨s.mem, s.pending, s.replies, rfl, fun _ => id, fun _ _ => rfl⟩

theorem OnlyPoked.trans {u : State} (h : OnlyPoked s t) (h' : OnlyPoked t u) : OnlyPoked s u := by
  obtain ⟨m, calls, log, rfl, hcalls, hread⟩ := h
  obtain ⟨m', calls', log', rfl, hcalls', hread'⟩ := h'
  refine ⟨m', calls', log', rfl, fun c hc => hcalls c (hcalls' c hc), fun a ha => ?_⟩
  exact (hread' a fun v hv => ha v (hcalls _ hv)).trans (hread a ha)

/-- A move of the host in a stopped machine, if it is no reset, is a poke or a refusal (R211, R212). -/
theorem step_stopped (hb : s.busy = false) (hst : s.st = .halted ∨ s.st = .faulted) (hno : NoReset s)
    (h : step s = .next t) : OnlyPoked s t := by
  have htail {c : HostCall} {rest : List HostCall} (hp : s.pending = c :: rest) : ∀ d, d ∈ rest → d ∈ s.pending := by
    rw [hp]
    exact fun d hd => List.mem_cons_of_mem c hd
  obtain ⟨-, rfl⟩ | ⟨p, rest, hp, -, -⟩ | ⟨a, v, rest, hp, -, rfl⟩ | ⟨inputs, rest, -, hrun, -⟩ |
    ⟨c, rest, r, hp, -, rfl⟩ := step_idle_cases hb h
  · exact OnlyPoked.refl _
  · exact absurd (by simp [hp]) (hno p)
  · refine ⟨_, _, _, rfl, htail hp, fun b hpoke => ?_⟩
    have hne : b ≠ a := by
      rintro rfl
      exact hpoke v (by simp [hp])
    exact Memory.read_write_other _ v hne
  · obtain hst | hst := hst <;> simp [hst] at hrun
  · exact ⟨_, _, _, rfl, htail hp, fun _ _ => rfl⟩

theorem RunsTo.onlyPoked {n : Nat} (h : RunsTo n s t) (hb : s.busy = false) (hst : s.st = .halted ∨ s.st = .faulted)
    (hno : NoReset s) : OnlyPoked s t := by
  refine h.invariant (P := OnlyPoked s) (fun u v hu hv => hu.trans ?_) (OnlyPoked.refl s)
  obtain ⟨m, calls, log, rfl, hcalls, -⟩ := hu
  exact step_stopped hb hst (fun p hp => hno p (hcalls _ hp)) hv

/-! ## The queues -/

/-- A step of the core, or of the idle machine without calls, appends to OUTQ or drops the head of INQ (R33, R34). -/
theorem step_queues (hp : s.pending = []) (h : step s = .next t) :
    t.pending = [] ∧ s.outq <+: t.outq ∧ t.inq <:+ s.inq := by
  cases hb : s.busy with
  | true =>
    obtain ⟨-, ⟨r, -, rfl⟩ | ⟨i, u, -, hu, rfl⟩⟩ := step_busy_cases hb h
    · simp [hp]
    · have he := exec_effect hu
      simp only [State.deliver_pending, State.deliver_outq, State.deliver_inq]
      refine ⟨he.pending_eq.trans hp, ?_, ?_⟩
      · obtain ho | ⟨_, v, -, ho⟩ := he.outq_cases
        · rw [ho]
        · rw [ho]
          exact List.prefix_append ..
      · obtain hq | ⟨_, v, -, hq⟩ := he.inq_cases
        · rw [hq]
        · rw [hq]
          exact List.suffix_cons ..
  | false =>
    obtain rfl := Host.Outcome.next.inj ((step_idle_self hb hp).symm.trans h)
    exact ⟨hp, List.prefix_rfl, List.suffix_rfl⟩

end Runs

/-! ## The obligations -/

/-- Settles O50: the idle machine steps to itself. -/
theorem idleMachineDoesNothing : Obligations.IdleMachineDoesNothing := fun _ _ _ hb hp h => h.eq_of_idle hb hp

/-- Settles O40: no step of a stopped machine is the core's, and the host can only poke it. -/
theorem stoppedMachineStaysStopped : Obligations.StoppedMachineStaysStopped := by
  intro n s t hinv hst hno h
  have hb : s.busy = false := by
    by_contra hb
    have hrun := hinv.running_of_busy (Bool.eq_true_of_not_eq_false hb)
    obtain hst | hst := hst <;> simp [hst] at hrun
  obtain ⟨m, calls, log, rfl, -, hread⟩ := h.onlyPoked hb hst hno
  exact ⟨rfl, rfl, hb, rfl, rfl, rfl, rfl, hread⟩

/-- Settles O43: with no call to come, each step can extend OUTQ at its tail and shorten INQ at its head, and that adds up along a
run. -/
theorem outputsGrowAtTailInputsShrinkAtHead : Obligations.OutputsGrowAtTailInputsShrinkAtHead := by
  intro n s t hp h
  have hrun := h.invariant (P := fun u => u.pending = [] ∧ s.outq <+: u.outq ∧ u.inq <:+ s.inq)
    (fun u v ⟨hpu, ho, hq⟩ hv => by
      obtain ⟨hpv, ho', hq'⟩ := step_queues hpu hv
      exact ⟨hpv, ho.trans ho', hq'.trans hq⟩)
    ⟨hp, List.prefix_rfl, List.suffix_rfl⟩
  exact hrun.2

end Sys2Proof.Machine
end

section
/-! SUPPORT. What a fetch sees: a word just stored and a word just placed; the obligations about them.

Spec: 20_memory.md R68; 40_instruction_cycle.md R119. -/

namespace Sys2Proof.Machine

/-- Placing cells changes memory alone, from the first of the cells on. -/
theorem State.placeCells_eq (s : State) (a : Nat) (cells : List Word) :
    ∃ m, s.placeCells a cells = { s with mem := m } ∧ ∀ c, c < a → Memory.read m c = s.mem.read c := by
  induction cells generalizing s a with
  | nil => exact ⟨s.mem, rfl, fun _ _ => rfl⟩
  | cons v vs ih =>
    rw [State.placeCells]
    split
    · obtain ⟨m, hm, hread⟩ := ih (s.writeCell a v) (a + 1)
      refine ⟨m, hm, fun c hc => ?_⟩
      rw [hread c (by omega), State.writeCell_mem, Memory.read_write_other _ v hc.ne]
    · obtain ⟨m, hm, hread⟩ := ih s (a + 1)
      exact ⟨m, hm, fun c hc => hread c (by omega)⟩

/-- The first of the placed cells holds its value, where it exists. -/
theorem State.read_placeCells_first {s : State} {a : Nat} (hwf : s.mem.wf = true) (ha : a ≤ s.addrMax) (v : Word)
    (vs : List Word) : (s.placeCells a (v :: vs)).mem.read a = v := by
  rw [State.placeCells, if_pos ha]
  obtain ⟨m, hm, hread⟩ := (s.writeCell a v).placeCells_eq (a + 1) vs
  rw [hm]
  exact (hread a (by omega)).trans (Memory.read_write_same hwf a v)

theorem decode_of_decodeTableWord {nbits w : Nat} {i : Instr} (h : decodeTableWord nbits w = some i) :
    decode (tableCell nbits w 0) = .ok i := by
  unfold decodeTableWord at h
  split at h
  · next hd => rw [hd, Option.some.inj h]
  · cases h

/-- Settles O47: the cell at IP holds the placed word. -/
theorem placedTableWordRunsNext : Obligations.PlacedTableWordRunsNext := by
  intro s nbits w i hinv hw
  have hfirst : (s.withFetchWord nbits w).mem.read s.ip = tableCell nbits w 0 :=
    State.read_placeCells_first hinv.mem_wf hinv.ip_le _ _
  obtain ⟨m, hm, -⟩ := s.placeCells_eq s.ip ((List.range 4).map (tableCell nbits w))
  have hip : (s.withFetchWord nbits w).ip = s.ip := by rw [State.withFetchWord, hm]
  have hmax : (s.withFetchWord nbits w).addrMax = s.addrMax := by rw [State.withFetchWord, hm]
  refine step_of_decoded rfl (by rw [hip, hmax]; exact hinv.ip_le) ?_
  rw [hip, hfirst]
  exact decode_of_decodeTableWord hw

/-- Settles O46: the step stores the sum at the new IP, and the run goes on. -/
theorem storeSeenByNextFetch : Obligations.StoreSeenByNextFetch := by
  intro s a b dst x y i hinv hb hd hx hy hea hi
  have hstep : step s = .next ((s.writeCell (s.ip + 4) (aluAdd x y)).setIp (s.ip + 4)) := by
    rw [step_of_decoded hb hinv.ip_le hd, exec, execAdd, storeResult_done aluAdd hx hy hea hea.le, delivered_next]
    exact congrArg Host.Outcome.next (State.deliver_of_busy hb)
  refine ⟨_, hstep, rfl, step_of_decoded hb hea.le ?_⟩
  rw [State.setIp_mem, State.setIp_ip, State.writeCell_mem, Memory.read_write_same hinv.mem_wf]
  exact hi

end Sys2Proof.Machine
end

section
/-! SUPPORT. Changes of the state that an instruction does not see: it does the same with RB, the queues and the host's lists changed,
where it does not read them; the obligations about it.

Spec: 10_state.md R34; 41_addressing_resolver.md R142. -/

namespace Sys2Proof.Machine

/-- A change of RB, of the queues and of the host's lists, each by a function of its old value. -/
structure Veil where
  rb : Word → Word := id
  inq : List Word → List Word := id
  outq : List Word → List Word := id
  pending : List HostCall → List HostCall := id
  replies : List HostReply → List HostReply := id

/-- The changed state. -/
def Veil.on (g : Veil) (s : State) : State :=
  { s with
    rb := g.rb s.rb
    inq := g.inq s.inq
    outq := g.outq s.outq
    pending := g.pending s.pending
    replies := g.replies s.replies }

/-- RB is as it was, or no operand of mode `m` reads it (R142). -/
def Veil.KeepsBase (g : Veil) (m : Mode) : Prop := (∀ x, g.rb x = x) ∨ m ≠ .relative

/-- The change touches nothing that `i` reads in `s`, and keeps the heads and tails at which `i` changes the queues. -/
structure Veil.Unseen (g : Veil) (i : Instr) (s : State) : Prop where
  modes : ∀ m ∈ i.modes, g.KeepsBase m
  rb : ∀ a, i = .arb a → ∀ x, g.rb x = x
  inq_nil : ∀ m, i = .inp m → s.inq = [] → g.inq [] = []
  inq_cons : ∀ m, i = .inp m → ∀ v rest, s.inq = v :: rest → g.inq (v :: rest) = v :: g.inq rest
  outq : ∀ a, i = .out a → ∀ q v, g.outq (q ++ [v]) = g.outq q ++ [v]

section Veils

variable {g : Veil} {s t : State}

/-! ## The resolver under a change -/

theorem resolveRead_on {m : Mode} (h : g.KeepsBase m) (k : Nat) : resolveRead (g.on s) k m = resolveRead s k m := by
  cases m with
  | position => rfl
  | immediate => rfl
  | relative =>
    have hrb : (g.on s).rb = s.rb := h.resolve_right (not_not_intro rfl) s.rb
    rw [resolveRead, hrb]
    rfl

theorem resolveWrite_on {m : Mode} (h : g.KeepsBase m) (k : Nat) : resolveWrite (g.on s) k m = resolveWrite s k m := by
  cases m with
  | position => rfl
  | immediate => rfl
  | relative =>
    have hrb : (g.on s).rb = s.rb := h.resolve_right (not_not_intro rfl) s.rb
    rw [resolveWrite, hrb]
    rfl

theorem nextIp_on (len : Nat) : nextIp (g.on s) len = nextIp s len := rfl

theorem jumpIp_on (taken : Bool) (target : Word) : jumpIp (g.on s) taken target = jumpIp s taken target := rfl

/-! ## Instructions under a change -/

/-- An instruction that computes the changed result takes the changed next state: a fault's entry is that of the change too. -/
theorem commit_on {r r' : Except FaultKind State} (h : commit s r = .next t) (hr : r' = g.on <$> r) :
    commit (g.on s) r' = .next (g.on t) := by
  subst hr
  obtain rfl | ⟨k, rfl, rfl⟩ := commit_next.1 h <;> rfl

theorem storeResult_on {f : Word → Word → Word} {a b dst : Mode} (ha : g.KeepsBase a) (hb : g.KeepsBase b)
    (hd : g.KeepsBase dst) (h : storeResult f a b dst s = .next t) : storeResult f a b dst (g.on s) = .next (g.on t) := by
  refine commit_on h ?_
  simp only [resolveRead_on ha, resolveRead_on hb, resolveWrite_on hd, nextIp_on, map_bind, map_pure]
  rfl

theorem jumpWhen_on {p : Word → Bool} {a target : Mode} (ha : g.KeepsBase a) (ht : g.KeepsBase target)
    (h : jumpWhen p a target s = .next t) : jumpWhen p a target (g.on s) = .next (g.on t) := by
  refine commit_on h ?_
  simp only [resolveRead_on ha, resolveRead_on ht, jumpIp_on, map_bind, map_pure]
  rfl

theorem execArb_on {a : Mode} (hrb : ∀ x, g.rb x = x) (h : execArb a s = .next t) :
    execArb a (g.on s) = .next (g.on t) := by
  refine commit_on h ?_
  simp only [resolveRead_on (.inl hrb), nextIp_on, map_bind, map_pure]
  simp only [Veil.on, State.setRb, State.setIp, hrb]

theorem execOut_on {a : Mode} (ha : g.KeepsBase a) (hout : ∀ q v, g.outq (q ++ [v]) = g.outq q ++ [v])
    (h : execOut a s = .next t) : execOut a (g.on s) = .next (g.on t) := by
  refine commit_on h ?_
  simp only [resolveRead_on ha, nextIp_on, map_bind, map_pure]
  simp only [Veil.on, State.pushOutput, State.setIp, hout]

theorem execInp_on {dst : Mode} (hd : g.KeepsBase dst) (hnil : s.inq = [] → g.inq [] = [])
    (hcons : ∀ v rest, s.inq = v :: rest → g.inq (v :: rest) = v :: g.inq rest) (h : execInp dst s = .next t) :
    execInp dst (g.on s) = .next (g.on t) := by
  refine commit_on h ?_
  cases hq : s.inq with
  | nil =>
    have hq' : (g.on s).inq = [] := (congrArg g.inq hq).trans (hnil hq)
    simp only [hq', resolveWrite_on hd, nextIp_on, map_bind, map_pure]
    rfl
  | cons v rest =>
    have hq' : (g.on s).inq = v :: g.inq rest := (congrArg g.inq hq).trans (hcons v rest hq)
    simp only [hq', resolveWrite_on hd, nextIp_on, map_bind, map_pure]
    rfl

/-- An instruction does the same under a change that it does not see. -/
theorem exec_on {i : Instr} (hg : g.Unseen i s) (h : exec i s = .next t) : exec i (g.on s) = .next (g.on t) := by
  have hm := hg.modes
  cases i <;> simp only [Instr.modes, List.forall_mem_cons] at hm
  case add a b dst => exact storeResult_on hm.1 hm.2.1 hm.2.2.1 h
  case mul a b dst => exact storeResult_on hm.1 hm.2.1 hm.2.2.1 h
  case inp dst => exact execInp_on hm.1 (hg.inq_nil dst rfl) (hg.inq_cons dst rfl) h
  case out a => exact execOut_on hm.1 (hg.outq a rfl) h
  case jt a target => exact jumpWhen_on hm.1 hm.2.1 h
  case jf a target => exact jumpWhen_on hm.1 hm.2.1 h
  case lt a b dst => exact storeResult_on hm.1 hm.2.1 hm.2.2.1 h
  case eq a b dst => exact storeResult_on hm.1 hm.2.1 hm.2.2.1 h
  case arb a => exact execArb_on (hg.rb a rfl) h
  case hlt =>
    cases h
    rfl

/-- No instruction sees what stands in OUTQ before the run, nor the host's log (R34). -/
theorem unseen_outputs (o : List Word) (log : List HostReply → List HostReply) (i : Instr) (s : State) :
    ({ outq := (o ++ ·), replies := log } : Veil).Unseen i s where
  modes := fun _ _ => .inl fun _ => rfl
  rb := fun _ _ _ => rfl
  inq_nil := fun _ _ _ => rfl
  inq_cons := fun _ _ _ _ _ => rfl
  outq := fun _ _ q v => (List.append_assoc o q [v]).symm

/-- RB is not seen by an instruction other than ARB without an operand of mode 2 (R142). -/
theorem unseen_base {i : Instr} (hm : Mode.relative ∉ i.modes) (hi : ∀ a, i ≠ .arb a) (r : Word) (s : State) :
    ({ rb := fun _ => r } : Veil).Unseen i s where
  modes := fun _ hmem => .inr fun he => hm (he ▸ hmem)
  rb := fun a ha => absurd ha (hi a)
  inq_nil := fun _ _ _ => rfl
  inq_cons := fun _ _ _ _ _ => rfl
  outq := fun _ _ _ _ => rfl

/-- What stands in INQ after its last value is not seen while there is one to take (R180). -/
theorem unseen_inputs {i : Instr} (hne : ∀ m, i = .inp m → s.inq ≠ []) (q : List Word) :
    ({ inq := (· ++ q) } : Veil).Unseen i s where
  modes := fun _ _ => .inl fun _ => rfl
  rb := fun _ _ _ => rfl
  inq_nil := fun m hi hq => absurd hq (hne m hi)
  inq_cons := fun _ _ _ _ _ => rfl
  outq := fun _ _ _ _ => rfl

end Veils

/-! ## The obligations -/

/-- Settles O44: earlier outputs are a change that no instruction sees. -/
theorem coreNeverReadsOutputs : Obligations.CoreNeverReadsOutputs := by
  intro i s t o h
  exact (exec_on (unseen_outputs o id i s) h :)

/-- Settles O45: another RB is a change that such an instruction does not see. -/
theorem relativeBaseMattersOnlyToModeTwo : Obligations.RelativeBaseMattersOnlyToModeTwo := by
  intro i s t r hm hi h
  exact (exec_on (unseen_base hm hi r s) h :)

end Sys2Proof.Machine
end

section
/-! SUPPORT. A run whose inputs come in two parts, and the obligation about it: up to the suspension the later inputs are not seen, and
after it the earlier outputs are not.

Spec: 45_run_interface.md R208, R210, R215. -/

namespace Sys2Proof.Machine

section Runs

variable {g : Veil} {s t u : State}

/-! ## A step of the core under a change -/

/-- A step that goes on goes on alike. -/
theorem step_on_of_busy (hb : s.busy = true) (h : step s = .next t) (ht : t.busy = true)
    (hg : ∀ i, decode (s.mem.read s.ip) = .ok i → g.Unseen i s) : step (g.on s) = .next (g.on t) := by
  obtain ⟨hip, ⟨r, -, rfl⟩ | ⟨i, u, hd, hu, rfl⟩⟩ := step_busy_cases hb h
  · simp at ht
  · rw [State.deliver_busy] at ht
    rw [State.deliver_of_busy ht, step_of_decoded (s := g.on s) hb hip hd, exec_on (hg i hd) hu, delivered_next]
    exact congrArg Host.Outcome.next (State.deliver_of_busy ht)

/-- Any step ends alike, but for what the host is answered. -/
theorem step_on (hb : s.busy = true) (h : step s = .next t) (hg : ∀ i, g.Unseen i s) :
    ∃ log, step (g.on s) = .next { g.on t with replies := log } := by
  have hdeliver (w : State) : ∃ log, (g.on w).deliver = { g.on w.deliver with replies := log } := by
    obtain ⟨log, hlog⟩ := (g.on w).deliver_eq
    obtain ⟨log', hlog'⟩ := w.deliver_eq
    exact ⟨log, by rw [hlog, hlog']; rfl⟩
  obtain ⟨hip, ⟨r, hd, rfl⟩ | ⟨i, w, hd, hw, rfl⟩⟩ := step_busy_cases hb h
  · obtain ⟨log, hlog⟩ := hdeliver (s.raise (rejectionFault r))
    exact ⟨log, by rw [step_of_rejected (s := g.on s) hb hip hd, ← hlog]; rfl⟩
  · obtain ⟨log, hlog⟩ := hdeliver w
    exact ⟨log, by rw [step_of_decoded (s := g.on s) hb hip hd, exec_on (hg i) hw, delivered_next, hlog]⟩

/-! ## A run under a change -/

/-- A run to its end under a change that is never seen. -/
theorem RunsTo.on {n : Nat} (h : RunsTo n s u) (hb : s.busy = true) (hp : s.pending = []) (hu : u.busy = false)
    (hg : ∀ i s, g.Unseen i s) : ∃ k log, RunsTo k (g.on s) { g.on u with replies := log } := by
  induction n generalizing s with
  | zero =>
    obtain rfl := runsTo_zero.1 h
    simp [hb] at hu
  | succ n ih =>
    obtain ⟨w, hw, hr⟩ := runsTo_succ.1 h
    have hpw := (step_queues hp hw).1
    cases hbw : w.busy with
    | true =>
      obtain ⟨k, log, hk⟩ := ih hr hbw hpw
      exact ⟨k + 1, log, _, step_on_of_busy hb hw hbw fun i _ => hg i s, hk⟩
    | false =>
      obtain rfl := hr.eq_of_idle hbw hpw
      obtain ⟨log, hlog⟩ := step_on hb hw fun i => hg i s
      exact ⟨1, log, _, hlog, rfl⟩

/-- An IN without input does not go on. -/
theorem inq_ne_nil_of_busy {m : Mode} (hb : s.busy = true) (h : step s = .next t) (ht : t.busy = true)
    (hd : decode (s.mem.read s.ip) = .ok (.inp m)) : s.inq ≠ [] := by
  intro hq
  obtain ⟨-, ⟨r, hr, -⟩ | ⟨i, w, hi, hw, rfl⟩⟩ := step_busy_cases hb h
  · cases hd.symm.trans hr
  · obtain rfl := Except.ok.inj (hd.symm.trans hi)
    obtain ⟨ea, v, rest, -, -, hcons, -⟩ | ⟨ea, -, -, -, rfl⟩ | ⟨k, rfl⟩ := execInp_cases hw
    · cases hq.symm.trans hcons
    · simp at ht
    · simp at ht

/-- A run that ends waiting for input, with more inputs behind its own: it comes to the same IN, and finds them there. -/
theorem RunsTo.moreInputs {n : Nat} (h : RunsTo n s t) (hb : s.busy = true) (hp : s.pending = []) (hst : s.st = .running)
    (ht : t.busy = false) (hwait : t.st = .awaitingInput) (q : List Word) :
    ∃ (k : Nat) (w : State), RunsTo k (({ inq := (· ++ q) } : Veil).on s) { w with inq := q } ∧ w.busy = true ∧
      w.pending = [] ∧ w.st = .running ∧ t = w.suspend.reply (.progress w.outq) := by
  induction n generalizing s with
  | zero =>
    obtain rfl := runsTo_zero.1 h
    simp [hb] at ht
  | succ n ih =>
    obtain ⟨w, hw, hr⟩ := runsTo_succ.1 h
    have hpw := (step_queues hp hw).1
    have hend (hbw : w.busy = false) : t = w := hr.eq_of_idle hbw hpw
    obtain ⟨hbw, hstw, -⟩ | ⟨rfl, m, ea, hd, -, -, hq⟩ | ⟨rfl, -⟩ | ⟨k, rfl⟩ := step_busy_status hb hw
    · obtain ⟨k, v, hk, hv⟩ := ih hr hbw hpw (hstw.trans hst)
      refine ⟨k + 1, v, ⟨_, step_on_of_busy hb hw hbw fun i hd => unseen_inputs (fun m hi => ?_) q, hk⟩, hv⟩
      exact inq_ne_nil_of_busy hb hw hbw (hi ▸ hd)
    · refine ⟨0, s, ?_, hb, hp, hst, hend rfl⟩
      simp [runsTo_zero, Veil.on, hq]
    · simp [hend rfl] at hwait
    · simp [hend rfl] at hwait

theorem step_of_only_call {c : HostCall} (hb : s.busy = false) :
    step { s with pending := [c] } = hostCall c { s with pending := [] } :=
  step_of_call (s := { s with pending := [c] }) hb rfl

/-- The host's run, called in an idle machine, begins, or it is refused for good (R208, R211, R212). -/
theorem RunsTo.of_call {n : Nat} {q : List Word} (hb : s.busy = false) (h : RunsTo n { s with pending := [.run q] } t)
    (ht : t.pending = []) :
    ((s.st = .running ∨ s.st = .awaitingInput) ∧ ∃ k, RunsTo k (({ s with pending := [] } : State).beginRun q) t) ∨
      ((s.st = .halted ∨ s.st = .faulted) ∧ t.st = s.st) := by
  cases n with
  | zero =>
    obtain rfl := runsTo_zero.1 h
    cases ht
  | succ n =>
    obtain ⟨w, hw, hr⟩ := runsTo_succ.1 h
    rw [step_of_only_call hb] at hw
    have begun (hst : s.st = .running ∨ s.st = .awaitingInput) :
        ∃ k, RunsTo k (({ s with pending := [] } : State).beginRun q) t := by
      obtain rfl := Host.Outcome.next.inj ((hostCall_run (s := { s with pending := [] }) q hst).symm.trans hw)
      exact ⟨n, hr⟩
    have refused {r : HostReply} (hcall : hostCall (.run q) { s with pending := [] } =
        .next (({ s with pending := [] } : State).reply r)) : t.st = s.st := by
      obtain rfl := Host.Outcome.next.inj (hcall.symm.trans hw)
      rw [hr.eq_of_idle hb rfl]
      rfl
    cases hst : s.st with
    | running => exact .inl ⟨.inl rfl, begun (.inl hst)⟩
    | awaitingInput => exact .inl ⟨.inr rfl, begun (.inr hst)⟩
    | halted => exact .inr ⟨.inl rfl, hst ▸ refused (hostCall_run_halted q hst)⟩
    | faulted => exact .inr ⟨.inr rfl, hst ▸ refused (hostCall_run_faulted q hst)⟩

end Runs

/-! ## The obligation -/

/-- Settles O56: the one run comes, with the later inputs unseen behind the earlier ones, to the IN at which the first run waits; there
it is the second run from its beginning, but for earlier outputs, which are not seen. -/
theorem splitInputsRunLikeOneRun : Obligations.SplitInputsRunLikeOneRun := by
  intro s t u m n in1 in2 hb hfirst hpt hbt hwait hsecond hpu hbu
  obtain ⟨hst, k₁, hrun₁⟩ | ⟨hst, hkeep⟩ := hfirst.of_call hb hpt
  swap
  · obtain hst | hst := hst <;> simp [hkeep, hst] at hwait
  obtain ⟨-, k₂, hrun₂⟩ | ⟨hst', -⟩ := hsecond.of_call hbt hpu
  swap
  · simp [hwait] at hst'
  obtain ⟨j₁, w, hj₁, hbw, hpw, hstw, rfl⟩ := hrun₁.moreInputs rfl rfl rfl hbt hwait in2
  obtain ⟨j₂, log, hj₂⟩ := hrun₂.on (g := { outq := (w.outq ++ ·), replies := fun _ => w.replies }) rfl rfl hbu
    (unseen_outputs w.outq _)
  have hmeet : ({ w with inq := in2 } : State) = ({ outq := (w.outq ++ ·), replies := fun _ => w.replies } : Veil).on
      (({ w.suspend.reply (.progress w.outq) with pending := [] } : State).beginRun in2) := by
    simp [Veil.on, State.beginRun, State.reply, State.suspend, ← hpw, ← hstw, ← hbw]
  have hcall : step { s with pending := [.run (in1 ++ in2)] } =
      .next (({ inq := (· ++ in2) } : Veil).on (({ s with pending := [] } : State).beginRun in1)) :=
    (step_of_only_call hb).trans (hostCall_run (in1 ++ in2) hst)
  rw [← hmeet] at hj₂
  exact ⟨j₁ + j₂ + 1, _, ⟨_, hcall, hj₁.append hj₂⟩, hpu, hbu, rfl, rfl, rfl, rfl, rfl, rfl, rfl⟩

end Sys2Proof.Machine
end
